-- ==== Sys2Proof/Word.lean ====
section
/-! DEFINITION. The word types of the block: nothing in it is signed (00_scope.md section 4). -/

namespace Sys2Proof

/-- DLEN = 8: a memory cell, a memory access, one half of a register pair (00_scope.md R4). -/
abbrev Byte := BitVec 8

/-- XLEN = ALEN = 16: a register pair, the program counter, an address, a response (00_scope.md R4). -/
abbrev Word := BitVec 16

/-- One command word `cmd[31:0]` (30_encoding.md R92). -/
abbrev Command := BitVec 32

end Sys2Proof
end

