-- ==== Sys2Proof/Syntax.lean ====
section
/-! DEFINITION. The sixteen operations with their operands (30_encoding.md R91, R96), one constructor per row of
spec/opcode_table.json. -/

namespace Sys2Proof

/-- The registers a select code names (30_encoding.md R94): the five pairs and the program counter. -/
inductive Reg where
  | af | bc | de | hl | sp | pc
  deriving DecidableEq, Repr

/-- One operation of the block. -/
inductive Instr where
  /-- HI r (R120). -/
  | hi (r : Reg)
  /-- LO r (R121). -/
  | lo (r : Reg)
  /-- VALUE r (R122). -/
  | value (r : Reg)
  /-- SETHI r, b (R123). -/
  | setHi (r : Reg) (b : Byte)
  /-- SETLO r, b (R124). -/
  | setLo (r : Reg) (b : Byte)
  /-- SET r, w (R125). -/
  | set (r : Reg) (w : Word)
  /-- ZERO (R141). -/
  | zero
  /-- SUBTRACT (R142). -/
  | subtract
  /-- HALFCARRY (R143). -/
  | halfCarry
  /-- CARRY (R144). -/
  | carry
  /-- SETZERO f (R145). -/
  | setZero (f : Bool)
  /-- SETSUBTRACT f (R146). -/
  | setSubtract (f : Bool)
  /-- SETHALFCARRY f (R147). -/
  | setHalfCarry (f : Bool)
  /-- SETCARRY f (R148). -/
  | setCarry (f : Bool)
  /-- READ8 w (R160). -/
  | read8 (w : Word)
  /-- WRITE8 w, b (R180). -/
  | write8 (w : Word) (b : Byte)
  deriving DecidableEq, Repr

end Sys2Proof
end

