-- ==== Sys2Proof/WellFormed.lean ====
section
/-! DEFINITION. Which operand combinations the block has an operation for: the program counter has a 16-bit view only
(10_state.md R19, 30_encoding.md R99), every other operand is legal at every value (20_memory.md R46). -/

namespace Sys2Proof

/-- The register is one of the five register pairs, which have byte views (10_state.md R11, R19). -/
def Reg.isPair : Reg → Bool
  | .af | .bc | .de | .hl | .sp => true
  | .pc => false

/-- The operation exists: HI, LO, SETHI and SETLO take a pair and not PC (30_encoding.md R99). -/
def Instr.wellFormed : Instr → Bool
  | .hi r => r.isPair
  | .lo r => r.isPair
  | .value _ => true
  | .setHi r _ => r.isPair
  | .setLo r _ => r.isPair
  | .set _ _ => true
  | .zero => true
  | .subtract => true
  | .halfCarry => true
  | .carry => true
  | .setZero _ => true
  | .setSubtract _ => true
  | .setHalfCarry _ => true
  | .setCarry _ => true
  | .read8 _ => true
  | .write8 _ _ => true

end Sys2Proof
end

