-- ==== Sys2Proof/Decode.lean ====
section
/-! DEFINITION. The command word: its fields, the decoder, total on every 32-bit word (30_encoding.md R92 to R102),
and the encoder written from the same tables. -/

namespace Sys2Proof

/-- Why a word is ILLEGAL. -/
inductive Illegal where
  /-- `op` is 0x00, 0x07 or 0x12 to 0x1F (R98). -/
  | reservedOpcode
  /-- `r` names no register this opcode takes, or is not 0 where it is unused (R99). -/
  | registerSelect
  /-- A field the operation does not use is not all zero (R95, R100). -/
  | unusedField
  deriving DecidableEq, Repr

/-- `op`, bits 31 to 27 (R92). -/
def opField (c : Command) : BitVec 5 := c.extractLsb' 27 5

/-- `r`, bits 26 to 24 (R92). -/
def rField (c : Command) : BitVec 3 := c.extractLsb' 24 3

/-- `w`, bits 23 to 8 (R92). -/
def wField (c : Command) : Word := c.extractLsb' 8 16

/-- `b`, bits 7 to 0 (R92). -/
def bField (c : Command) : Byte := c.extractLsb' 0 8

/-- The register a select code names (R94); codes 6 and 7 are reserved. -/
def Reg.ofCode (r : BitVec 3) : Option Reg :=
  match r.toNat with
  | 0 => some .af
  | 1 => some .bc
  | 2 => some .de
  | 3 => some .hl
  | 4 => some .sp
  | 5 => some .pc
  | _ => none

/-- The operation `i`, where the fields it does not use are clear (R95). -/
def ifClear (clear : Bool) (i : Instr) : Except Illegal Instr :=
  if clear then .ok i else .error .unusedField

/-- Select a register for VALUE and SET: codes 0 to 5 (R99). -/
def selectReg (c : Command) (k : Reg → Except Illegal Instr) : Except Illegal Instr :=
  match Reg.ofCode (rField c) with
  | some r => k r
  | none => .error .registerSelect

/-- Select a pair for HI, LO, SETHI and SETLO: codes 0 to 4 (R99). -/
def selectPair (c : Command) (k : Reg → Except Illegal Instr) : Except Illegal Instr :=
  selectReg c fun r => if r.isPair then k r else .error .registerSelect

/-- The operations that use no register: `r` must be 0 (R99). -/
def selectNone (c : Command) (k : Except Illegal Instr) : Except Illegal Instr :=
  if rField c = 0 then k else .error .registerSelect

/-- `Decode` of R102. -/
def decode (c : Command) : Except Illegal Instr :=
  let w := wField c
  let b := bField c
  match (opField c).toNat with
  | 0x01 => selectPair c fun r => ifClear (w == 0 && b == 0) (.hi r)
  | 0x02 => selectPair c fun r => ifClear (w == 0 && b == 0) (.lo r)
  | 0x03 => selectReg c fun r => ifClear (w == 0 && b == 0) (.value r)
  | 0x04 => selectPair c fun r => ifClear (w == 0) (.setHi r b)
  | 0x05 => selectPair c fun r => ifClear (w == 0) (.setLo r b)
  | 0x06 => selectReg c fun r => ifClear (b == 0) (.set r w)
  | 0x08 => selectNone c (ifClear (w == 0 && b == 0) .zero)
  | 0x09 => selectNone c (ifClear (w == 0 && b == 0) .subtract)
  | 0x0A => selectNone c (ifClear (w == 0 && b == 0) .halfCarry)
  | 0x0B => selectNone c (ifClear (w == 0 && b == 0) .carry)
  | 0x0C => selectNone c (ifClear (w == 0 && b.extractLsb' 1 7 == 0) (.setZero (b.getLsbD 0)))
  | 0x0D => selectNone c (ifClear (w == 0 && b.extractLsb' 1 7 == 0) (.setSubtract (b.getLsbD 0)))
  | 0x0E => selectNone c (ifClear (w == 0 && b.extractLsb' 1 7 == 0) (.setHalfCarry (b.getLsbD 0)))
  | 0x0F => selectNone c (ifClear (w == 0 && b.extractLsb' 1 7 == 0) (.setCarry (b.getLsbD 0)))
  | 0x10 => selectNone c (ifClear (b == 0) (.read8 w))
  | 0x11 => selectNone c (.ok (.write8 w b))
  | _ => .error .reservedOpcode

/-- The select code of a register (R94). -/
def Reg.code : Reg → BitVec 3
  | .af => 0
  | .bc => 1
  | .de => 2
  | .hl => 3
  | .sp => 4
  | .pc => 5

/-- `(op << 27) | (r << 24) | (w << 8) | b` (R92), written as a concatenation of the four fields. -/
def packCommand (op : BitVec 5) (r : BitVec 3) (w : Word) (b : Byte) : Command :=
  op ++ r ++ w ++ b

/-- The byte operand of a flag setter: 1 for true, 0 for false (R96). -/
def flagOperand (f : Bool) : Byte := if f then 1 else 0

/-- The one command word of an operation, from the opcode map R93. -/
def encode : Instr → Command
  | .hi r => packCommand 0x01 r.code 0 0
  | .lo r => packCommand 0x02 r.code 0 0
  | .value r => packCommand 0x03 r.code 0 0
  | .setHi r b => packCommand 0x04 r.code 0 b
  | .setLo r b => packCommand 0x05 r.code 0 b
  | .set r w => packCommand 0x06 r.code w 0
  | .zero => packCommand 0x08 0 0 0
  | .subtract => packCommand 0x09 0 0 0
  | .halfCarry => packCommand 0x0A 0 0 0
  | .carry => packCommand 0x0B 0 0 0
  | .setZero f => packCommand 0x0C 0 0 (flagOperand f)
  | .setSubtract f => packCommand 0x0D 0 0 (flagOperand f)
  | .setHalfCarry f => packCommand 0x0E 0 0 (flagOperand f)
  | .setCarry f => packCommand 0x0F 0 0 (flagOperand f)
  | .read8 w => packCommand 0x10 0 w 0
  | .write8 w b => packCommand 0x11 0 w b

/-- The command word with the low `nbits` bits of `w` and every bit above them 0. The opcode table numbers a word's
bits as R92 does, and a word crosses the command port whole, so there is no byte order to undo (log entry 13). -/
def tableCommand (nbits w : Nat) : Command := BitVec.ofNat 32 (w % 2 ^ nbits)

/-- The operation the decoder reads from a word of the opcode table. -/
def decodeTableWord (nbits w : Nat) : Option Instr := (decode (tableCommand nbits w)).toOption

end Sys2Proof
end

