-- ==== Sys2Proof/Config.lean ====
section
/-! DEFINITION. Parameters of the block (00_scope.md R4 and R5) and the external Cartridge as a free value
(20_memory.md R60 to R65). Every statement that depends on a decided parameter names it. -/

namespace Sys2Proof

/-- AF_MASK, wired and not configurable (00_scope.md R4, 10_state.md R12). -/
def Config.afMask : Word := 0xFFF0

/-- SENTINEL, the byte a region without a store reads as (20_memory.md R66). -/
def Config.sentinel : Byte := 0xFF

/-- VRAM_BANK_SIZE, the multiplier of the video-RAM offset (20_memory.md R47). -/
def Config.vramBankSize : Nat := 0x2000

/-- WRAM_BANK_SIZE, the multiplier of the work-RAM offset (20_memory.md R49). -/
def Config.wramBankSize : Nat := 0x1000

/-- WRAM_BANK_RESET (00_scope.md R4, 10_state.md R35). -/
def Config.wramBankReset : BitVec 3 := 1

/-- PC_RESET, the post-boot entry address. UNVERIFIED: the spec's decision D2 (log entry 6). -/
def Config.pcReset : Word := 0x0100

/-- VBK_ADDR, the video-RAM bank-select register. UNVERIFIED: the spec's decision D3 (log entry 7). -/
def Config.vbkAddr : Word := 0xFF4F

/-- SVBK_ADDR, the work-RAM bank-select register. UNVERIFIED: the spec's decision D3 (log entry 7). -/
def Config.svbkAddr : Word := 0xFF70

/-- VRAM_BANK_RESET. UNVERIFIED: the spec's decision D5 (log entry 6). -/
def Config.vramBankReset : BitVec 1 := 0

/-- VRAM_SIZE in bytes (00_scope.md R5, decision D6). -/
def Config.vramSize : Nat := 0x4000

/-- WRAM_SIZE in bytes (00_scope.md R5, decision D6). -/
def Config.wramSize : Nat := 0x9000

/-- OAM_SIZE in bytes (00_scope.md R5, decision D6). -/
def Config.oamSize : Nat := 0xA0

/-- HIGH_SIZE in bytes (00_scope.md R5, decision D6). -/
def Config.highSize : Nat := 0x100

/-- A call of the Cartridge port that may change the Cartridge (20_memory.md R60). `CartRead` is not one: it changes
nothing (R62, decision D11). -/
inductive CartCall where
  /-- `CartWriteROM(addr, v)`, a bank-control command. -/
  | writeROM (addr : Word) (v : Byte)
  /-- `CartWriteRAM(addr, v)`. -/
  | writeRAM (addr : Word) (v : Byte)
  deriving DecidableEq, Repr

/-- The Cartridge's state `c` (20_memory.md R62), kept as the write calls made to it, oldest first. DESIGN CHOICE
(log entry 5): together with the uninterpreted `Config.cartRead` this stands for every Cartridge that meets R60 to R65
(`Laws.Cartridge`). -/
abbrev Cartridge := List CartCall

/-- FREE VALUE: the byte the Cartridge gives at an address after a history of write calls (93_implementation_defined.md
U1, U2, U7). It has no body, so a proof holds for every Cartridge. -/
opaque Config.cartRead : Cartridge → Word → Byte

end Sys2Proof
end

