-- ==== Sys2Proof/Machine/State.lean ====
section
/-! DEFINITION. The state of the block as plain data (10_state.md), the response ports and the pending inputs of its
command and reset interfaces (30_encoding.md R90), and the state after reset (10_state.md R33 to R38). -/

namespace Sys2Proof.Machine

/-- The cells of one backing store: index and byte, indices strictly rising, no entry equal to the cell's power-up
byte. `Memory.wf` says so. -/
abbrev Memory := List Host.Cell

/-- The four backing stores the block owns (10_state.md R24 to R27). -/
inductive Store where
  | vram | wram | oam | high
  deriving DecidableEq, Repr

/-- What the outside presents to the block next (30_encoding.md R90). -/
inductive Input where
  /-- The driver presents one word on `cmd`. -/
  | command (c : Command)
  /-- The host applies `rst` (70_reset_and_hazards.md R220). -/
  | reset
  deriving DecidableEq, Repr

/-- No operation faults (60_exceptions.md R200), so there is no fault: nothing raises one. Safe. -/
inductive Fault : Type
  deriving DecidableEq, Repr

/-- Refusals of the machine. No arm of `exec` answers with one: an ILLEGAL word is answered on the `ill` port
(60_exceptions.md R201), not refused. -/
inductive Refusal where
  /-- Raised by an arm of `exec` whose instruction has no meaning yet; none is left. Safe. -/
  | notModelled (mnemonic : String)
  deriving DecidableEq, Repr

structure State where
  /-- x[AF], stored as 16 bits; bits 3 to 0 are 0 by the invariant of R13 (10_state.md R12 to R17). -/
  af : Word
  /-- x[BC] (R11). -/
  bc : Word
  /-- x[DE] (R11). -/
  de : Word
  /-- x[HL] (R11). -/
  hl : Word
  /-- x[SP] (R11, R20). -/
  sp : Word
  /-- The program counter, passive storage (R18). -/
  pc : Word
  /-- vram_bank (R21). -/
  vramBank : BitVec 1
  /-- wram_bank, never 0 in a state a run reaches (R22). -/
  wramBank : BitVec 3
  /-- VRAM (R24). -/
  vram : Memory
  /-- WRAM (R25). -/
  wram : Memory
  /-- OAM (R26). -/
  oam : Memory
  /-- HIGH (R27). -/
  high : Memory
  /-- The external Cartridge (R28), as the write calls made to it. DESIGN CHOICE (log entry 5). -/
  cart : Cartridge
  /-- `rsp` of the last response (30_encoding.md R97). -/
  rsp : Word
  /-- `ill` of the last response (30_encoding.md R97). -/
  ill : Bool
  /-- What the driver and the host present next, first to come first. DESIGN CHOICE (log entry 1). -/
  inputs : List Input
  deriving DecidableEq, Repr

/-- The state right after power-up (10_state.md R33 to R37, 70_reset_and_hazards.md R220): nothing is listed in a
store, so every cell reads as its power-up byte. `rsp`, `ill`: DESIGN CHOICE (log entry 2). No Cartridge call has been
made and no input is pending (log entries 1 and 5). -/
def State.reset : State where
  af := 0
  bc := 0
  de := 0
  hl := 0
  sp := 0
  pc := Config.pcReset
  vramBank := Config.vramBankReset
  wramBank := Config.wramBankReset
  vram := []
  wram := []
  oam := []
  high := []
  cart := []
  rsp := 0
  ill := false
  inputs := []

end Sys2Proof.Machine
end

