-- ==== Sys2Proof/Machine/AddressMap.lean ====
section
/-! DEFINITION. The address decoder and the bank offset calculator: pure functions of an address and the two bank
indices (20_memory.md R41, R42, R47 to R52). -/

namespace Sys2Proof.Machine

/-- The nine regions of the address space (20_memory.md R41). -/
inductive Region where
  | rom | vram | xram | wram0 | wramx | echo | oam | unusable | high
  deriving DecidableEq, Repr

/-- `Region(addr)` (20_memory.md R42). -/
def region (addr : Word) : Region :=
  let a := addr.toNat
  if a ≤ 0x7FFF then .rom
  else if a ≤ 0x9FFF then .vram
  else if a ≤ 0xBFFF then .xram
  else if a ≤ 0xCFFF then .wram0
  else if a ≤ 0xDFFF then .wramx
  else if a ≤ 0xFDFF then .echo
  else if a ≤ 0xFE9F then .oam
  else if a ≤ 0xFEFF then .unusable
  else .high

/-- The first address of a region (20_memory.md R41). -/
def regionFirst : Region → Nat
  | .rom => 0x0000
  | .vram => 0x8000
  | .xram => 0xA000
  | .wram0 => 0xC000
  | .wramx => 0xD000
  | .echo => 0xE000
  | .oam => 0xFE00
  | .unusable => 0xFEA0
  | .high => 0xFF00

/-- `VramOff(addr, vram_bank)` (20_memory.md R47). -/
def vramOff (addr : Word) (vb : BitVec 1) : Nat :=
  addr.toNat - regionFirst .vram + vb.toNat * Config.vramBankSize

/-- `Wram0Off(addr)` (20_memory.md R48). -/
def wram0Off (addr : Word) : Nat := addr.toNat - regionFirst .wram0

/-- `WramBankedOff(addr, wram_bank)`; the subtrahend is 0xC000, not the region's own first address (20_memory.md R49). -/
def wramBankedOff (addr : Word) (wb : BitVec 3) : Nat :=
  (addr.toNat - regionFirst .wram0) + wb.toNat * Config.wramBankSize

/-- `OamOff(addr)` (20_memory.md R50). -/
def oamOff (addr : Word) : Nat := addr.toNat - regionFirst .oam

/-- `HighOff(addr)` (20_memory.md R51). -/
def highOff (addr : Word) : Nat := addr.toNat - regionFirst .high

/-- What an address resolves to. -/
inductive Target where
  /-- Cartridge ROM region: the external Cartridge. -/
  | cartROM
  /-- Cartridge RAM region: the external Cartridge. -/
  | cartRAM
  /-- A cell of a store the block owns. -/
  | cell (st : Store) (i : Nat)
  /-- A region without a store (20_memory.md R67, R68). -/
  | noStore
  deriving DecidableEq, Repr

/-- "every address … resolves to exactly one backing store and one offset-computation rule" (20_memory.md R42): the
backing column of R41. The read path and the write path both use it (R53). -/
def target (addr : Word) (vb : BitVec 1) (wb : BitVec 3) : Target :=
  match region addr with
  | .rom => .cartROM
  | .vram => .cell .vram (vramOff addr vb)
  | .xram => .cartRAM
  | .wram0 => .cell .wram (wram0Off addr)
  | .wramx => .cell .wram (wramBankedOff addr wb)
  | .echo => .noStore
  | .oam => .cell .oam (oamOff addr)
  | .unusable => .noStore
  | .high => .cell .high (highOff addr)

/-- `v[0]`, the video-RAM bank a byte written to VBK selects (20_memory.md R57). -/
def vramBankOfByte (v : Byte) : BitVec 1 := v.extractLsb' 0 1

/-- `v[2:0] == 0 ? 1 : v[2:0]`, the work-RAM bank a byte written to SVBK selects (20_memory.md R58). -/
def wramBankOfByte (v : Byte) : BitVec 3 :=
  if v.extractLsb' 0 3 = 0 then 1 else v.extractLsb' 0 3

end Sys2Proof.Machine
end

