-- ==== Sys2Proof/Machine/Operands.lean ====
section
/-! DEFINITION. The register file: byte views of a 16-bit value, the write mask, and the one read and the one write
of a register (10_state.md R10 to R15, 40_register_pair_ops.md R126, R127). -/

namespace Sys2Proof.Machine

/-- Bits 15 to 8 (10_state.md R10). -/
def hiByte (v : Word) : Byte := v.extractLsb' 8 8

/-- Bits 7 to 0 (10_state.md R10). -/
def loByte (v : Word) : Byte := v.extractLsb' 0 8

/-- The concatenation of a high and a low byte (00_scope.md section 4). -/
def joinBytes (hi lo : Byte) : Word := hi ++ lo

/-- `zext_16` of a byte (00_scope.md section 5). -/
def zext16 (b : Byte) : Word := b.setWidth 16

/-- A Boolean on the response port: 1 for true, 0 for false (30_encoding.md R97). -/
def boolResponse (f : Bool) : Word := if f then 1 else 0

/-- `mask(r)`: 0xFFF0 for AF, 0xFFFF for every other register (10_state.md R12). -/
def regMask : Reg → Word
  | .af => Config.afMask
  | .bc => 0xFFFF
  | .de => 0xFFFF
  | .hl => 0xFFFF
  | .sp => 0xFFFF
  | .pc => 0xFFFF

/-- `R(r)`: the stored value of a pair or of the program counter (40_register_pair_ops.md, R122). -/
def State.reg (s : State) : Reg → Word
  | .af => s.af
  | .bc => s.bc
  | .de => s.de
  | .hl => s.hl
  | .sp => s.sp
  | .pc => s.pc

/-- The register's storage takes the value as it is; `State.writeReg` is the write an operation makes. -/
def State.setReg (s : State) (r : Reg) (v : Word) : State :=
  match r with
  | .af => { s with af := v }
  | .bc => { s with bc := v }
  | .de => { s with de := v }
  | .hl => { s with hl := v }
  | .sp => { s with sp := v }
  | .pc => { s with pc := v }

/-- Every write of a register re-applies its mask (40_register_pair_ops.md R127). -/
def State.writeReg (s : State) (r : Reg) (v : Word) : State := s.setReg r (v &&& regMask r)

end Sys2Proof.Machine
end

