-- ==== Sys2Proof/Machine/Flags.lean ====
section
/-! DEFINITION. The four condition flags as bits of AF's low byte (10_state.md R16, 41_flag_ops.md R140, R149). The
block computes no flag (41_flag_ops.md R151): there is no other flag computation. -/

namespace Sys2Proof.Machine

/-- The condition flags; there are no others (10_state.md R16). -/
inductive Flag where
  | zero | subtract | halfCarry | carry
  deriving DecidableEq, Repr

/-- The flag's bit number in the flags byte (41_flag_ops.md R140). -/
def flagBit : Flag → Nat
  | .zero => 7
  | .subtract => 6
  | .halfCarry => 5
  | .carry => 4

/-- `1 << n`, 8 bits (41_flag_ops.md R140). -/
def flagMask (x : Flag) : Byte := 1#8 <<< flagBit x

/-- A flag is a bit of the stored AF (41_flag_ops.md R141 to R144). -/
def State.flag (s : State) (x : Flag) : Bool := (loByte (s.reg .af)).getLsbD (flagBit x)

/-- The flags byte with one bit set or cleared (41_flag_ops.md R149). -/
def withFlag (lo : Byte) (x : Flag) (f : Bool) : Byte :=
  if f then lo ||| flagMask x else lo &&& ~~~(flagMask x)

/-- `SetFlag(n, f)`: read-modify-write of AF's low byte through the masked register write (41_flag_ops.md R149). -/
def State.writeFlag (s : State) (x : Flag) (f : Bool) : State :=
  s.writeReg .af (joinBytes (hiByte (s.reg .af)) (withFlag (loByte (s.reg .af)) x f))

end Sys2Proof.Machine
end

