-- ==== Sys2Proof/Machine/Ops.lean ====
section
/-! DEFINITION. The shared operations: the stores, the read path and the write path, the response ports, the reset
event and the pending inputs. There is no exception to take and none to return from (60_exceptions.md R200, R205, R206);
the one abnormal outcome is `State.illegalResponse` (R201). -/

namespace Sys2Proof.Machine

/-- The 34 listed power-up bytes of HIGH: index and value (10_state.md R37; conflict C1 is decided for this table). -/
def highResetTable : List (Nat × Byte) :=
  [(0x04, 0x1E), (0x05, 0x00), (0x06, 0x00), (0x07, 0xF8), (0x0F, 0xE1), (0x10, 0x80), (0x11, 0xBF), (0x12, 0xF3),
    (0x14, 0xBF), (0x16, 0x3F), (0x17, 0x00), (0x19, 0xBF), (0x1A, 0x7F), (0x1B, 0xFF), (0x1C, 0x9F), (0x1E, 0xBF),
    (0x20, 0xFF)]
  ++ [(0x21, 0x00), (0x22, 0x00), (0x23, 0xBF), (0x24, 0x77), (0x25, 0xF3), (0x26, 0xF1), (0x40, 0x91), (0x41, 0x85),
    (0x42, 0x00), (0x43, 0x00), (0x45, 0x00), (0x47, 0xFC), (0x48, 0xFF), (0x49, 0xFF), (0x4A, 0x00), (0x4B, 0x00),
    (0xFF, 0x00)]

/-- What a cell that nothing has written reads as: its power-up byte (10_state.md R36, R37). -/
def Store.resetByte (st : Store) (i : Nat) : Byte :=
  match st with
  | .vram => 0
  | .wram => 0
  | .oam => 0
  | .high => (highResetTable.lookup i).getD 0

/-- The number of cells of a store (10_state.md R24 to R27). -/
def Store.size : Store → Nat
  | .vram => Config.vramSize
  | .wram => Config.wramSize
  | .oam => Config.oamSize
  | .high => Config.highSize

/-- The byte listed for cell `i`, or its power-up byte `dflt i`. -/
def Memory.read (dflt : Nat → Byte) (m : Memory) (i : Nat) : Byte :=
  match m with
  | [] => dflt i
  | (j, v) :: rest => if i = j then v else Memory.read dflt rest i

/-- List `v` for cell `i` at the front, unless it is the cell's power-up byte. -/
def Memory.entry (dflt : Nat → Byte) (i : Nat) (v : Byte) (rest : Memory) : Memory :=
  if v = dflt i then rest else (i, v) :: rest

/-- Store one byte and keep the canonical form: rising indices, no entry that equals the power-up byte. -/
def Memory.write (dflt : Nat → Byte) (m : Memory) (i : Nat) (v : Byte) : Memory :=
  match m with
  | [] => Memory.entry dflt i v []
  | (j, u) :: rest =>
    if i < j then Memory.entry dflt i v ((j, u) :: rest)
    else if i = j then Memory.entry dflt i v rest
    else (j, u) :: Memory.write dflt rest i v

/-- The canonical form of a store's cells: indices from `lo` up to below `size`, strictly rising, and no entry equal to
the cell's power-up byte. -/
def Memory.wfFrom (dflt : Nat → Byte) (size lo : Nat) (m : Memory) : Bool :=
  match m with
  | [] => true
  | (j, v) :: rest => decide (lo ≤ j) && decide (j < size) && decide (v ≠ dflt j) && Memory.wfFrom dflt size (j + 1) rest

/-- The canonical form of a store. -/
def Memory.wf (dflt : Nat → Byte) (size : Nat) (m : Memory) : Bool := Memory.wfFrom dflt size 0 m

/-- The cells of a store. -/
def State.store (s : State) : Store → Memory
  | .vram => s.vram
  | .wram => s.wram
  | .oam => s.oam
  | .high => s.high

/-- Replace the cells of a store. -/
def State.setStore (s : State) (st : Store) (m : Memory) : State :=
  match st with
  | .vram => { s with vram := m }
  | .wram => { s with wram := m }
  | .oam => { s with oam := m }
  | .high => { s with high := m }

/-- `VRAM[i]`, `WRAM[i]`, `OAM[i]`, `HIGH[i]` (00_scope.md section 5). -/
def State.readCell (s : State) (st : Store) (i : Nat) : Byte := Memory.read st.resetByte (s.store st) i

/-- `VRAM[i] <- v` and so on: one cell of one store (43_write8.md R191). -/
def State.writeCell (s : State) (st : Store) (i : Nat) (v : Byte) : State :=
  s.setStore st (Memory.write st.resetByte (s.store st) i v)

/-- A call that changes the Cartridge, with the global address and the byte unchanged (20_memory.md R60, R61). -/
def State.callCart (s : State) (call : CartCall) : State := { s with cart := s.cart ++ [call] }

/-- The bank-select side effect of `HighWrite` (20_memory.md R56 to R58). Both registers lie in high memory
(00_scope.md R5), so a write to any other region selects nothing. -/
def State.selectBanks (s : State) (addr : Word) (v : Byte) : State :=
  { s with
    vramBank := if addr = Config.vbkAddr then vramBankOfByte v else s.vramBank
    wramBank := if addr = Config.svbkAddr then wramBankOfByte v else s.wramBank }

/-- `MemRead(addr, 1)`, the read path (42_read8.md R160 to R169). -/
def State.readByte (s : State) (addr : Word) : Byte :=
  match target addr s.vramBank s.wramBank with
  | .cartROM => Config.cartRead s.cart addr
  | .cartRAM => Config.cartRead s.cart addr
  | .cell st i => s.readCell st i
  | .noStore => Config.sentinel

/-- `MemWrite(addr, 1, v)`, the write path (43_write8.md R180 to R189). The cell is the one under the banks in force
when the operation starts. -/
def State.writeByte (s : State) (addr : Word) (v : Byte) : State :=
  match target addr s.vramBank s.wramBank with
  | .cartROM => s.callCart (.writeROM addr v)
  | .cartRAM => s.callCart (.writeRAM addr v)
  | .cell st i => (s.writeCell st i v).selectBanks addr v
  | .noStore => s

/-- The response to a legal command: `rsp <- v`, `ill` = 0 (30_encoding.md R97). -/
def State.respond (s : State) (v : Word) : State := { s with rsp := v, ill := false }

/-- The ILLEGAL response: `ill` = 1, `rsp` = 0 and nothing else changes (60_exceptions.md R201). -/
def State.illegalResponse (s : State) : State := { s with rsp := 0, ill := true }

/-- The reset event (70_reset_and_hazards.md R220, R223): the whole power-up state; the Cartridge and what is still to
be presented are outside the block and stay (log entry 15). -/
def State.resetEvent (s : State) : State := { State.reset with cart := s.cart, inputs := s.inputs }

/-- Take the next input the outside presents. -/
def State.takeInput (s : State) : Option (Input × State) :=
  match s.inputs with
  | [] => none
  | x :: rest => some (x, { s with inputs := rest })

/-- What an operation on a register pair's byte does: HI, LO, SETHI and SETLO asked of PC are ILLEGAL
(10_state.md R19, 30_encoding.md R99). -/
def State.onPair (s : State) (r : Reg) (t : State) : State := if r.isPair then t else s.illegalResponse

end Sys2Proof.Machine
end

