-- ==== Sys2Proof/Machine/AddressSpace.lean ====
section
/-! DEFINITION. The two operations of the address space (42_read8.md, 43_write8.md). -/

namespace Sys2Proof.Machine

/-- READ8 w: `rsp <- zext_16(MemRead(w, 1))` (42_read8.md R160). -/
def execRead8 (w : Word) (s : State) : Host.Outcome State Fault Refusal :=
  .next (s.respond (zext16 (s.readByte w)))

/-- WRITE8 w, b: `MemWrite(w, 1, b)`, `rsp <- 0` (43_write8.md R180). -/
def execWrite8 (w : Word) (b : Byte) (s : State) : Host.Outcome State Fault Refusal :=
  .next ((s.writeByte w b).respond 0)

end Sys2Proof.Machine
end

