-- ==== Sys2Proof/Machine/FlagOps.lean ====
section
/-! DEFINITION. The eight flag operations (41_flag_ops.md). -/

namespace Sys2Proof.Machine

/-- ZERO (R141). -/
def execZero (s : State) : Host.Outcome State Fault Refusal :=
  .next (s.respond (boolResponse (s.flag .zero)))

/-- SUBTRACT (R142). -/
def execSubtract (s : State) : Host.Outcome State Fault Refusal :=
  .next (s.respond (boolResponse (s.flag .subtract)))

/-- HALFCARRY (R143). -/
def execHalfCarry (s : State) : Host.Outcome State Fault Refusal :=
  .next (s.respond (boolResponse (s.flag .halfCarry)))

/-- CARRY (R144). -/
def execCarry (s : State) : Host.Outcome State Fault Refusal :=
  .next (s.respond (boolResponse (s.flag .carry)))

/-- SETZERO f (R145). -/
def execSetZero (f : Bool) (s : State) : Host.Outcome State Fault Refusal :=
  .next ((s.writeFlag .zero f).respond 0)

/-- SETSUBTRACT f (R146). -/
def execSetSubtract (f : Bool) (s : State) : Host.Outcome State Fault Refusal :=
  .next ((s.writeFlag .subtract f).respond 0)

/-- SETHALFCARRY f (R147). -/
def execSetHalfCarry (f : Bool) (s : State) : Host.Outcome State Fault Refusal :=
  .next ((s.writeFlag .halfCarry f).respond 0)

/-- SETCARRY f (R148). -/
def execSetCarry (f : Bool) (s : State) : Host.Outcome State Fault Refusal :=
  .next ((s.writeFlag .carry f).respond 0)

end Sys2Proof.Machine
end

