-- ==== Sys2Proof/Machine/RegisterPair.lean ====
section
/-! DEFINITION. The six register-pair operations (40_register_pair_ops.md). -/

namespace Sys2Proof.Machine

/-- HI r: `rsp <- zext_16(x[r][15:8])` (R120). -/
def execHi (r : Reg) (s : State) : Host.Outcome State Fault Refusal :=
  .next (s.onPair r (s.respond (zext16 (hiByte (s.reg r)))))

/-- LO r: `rsp <- zext_16(x[r][7:0])` (R121). -/
def execLo (r : Reg) (s : State) : Host.Outcome State Fault Refusal :=
  .next (s.onPair r (s.respond (zext16 (loByte (s.reg r)))))

/-- VALUE r: `rsp <- R(r)` (R122). -/
def execValue (r : Reg) (s : State) : Host.Outcome State Fault Refusal :=
  .next (s.respond (s.reg r))

/-- SETHI r, b: new high byte, old low byte, masked (R123). -/
def execSetHi (r : Reg) (b : Byte) (s : State) : Host.Outcome State Fault Refusal :=
  .next (s.onPair r ((s.writeReg r (joinBytes b (loByte (s.reg r)))).respond 0))

/-- SETLO r, b: old high byte, new low byte, masked (R124). -/
def execSetLo (r : Reg) (b : Byte) (s : State) : Host.Outcome State Fault Refusal :=
  .next (s.onPair r ((s.writeReg r (joinBytes (hiByte (s.reg r)) b)).respond 0))

/-- SET r, w: the whole value, masked (R125). -/
def execSet (r : Reg) (w : Word) (s : State) : Host.Outcome State Fault Refusal :=
  .next ((s.writeReg r w).respond 0)

end Sys2Proof.Machine
end

