-- ==== Sys2Proof/Machine/Dispatch.lean ====
section
/-! DEFINITION. One arm per operation (30_encoding.md R91). -/

namespace Sys2Proof.Machine

def exec (i : Instr) (s : State) : Host.Outcome State Fault Refusal :=
  match i with
  -- register pairs (40_register_pair_ops.md)
  | .hi r => Sys2Proof.Machine.execHi r s
  | .lo r => Sys2Proof.Machine.execLo r s
  | .value r => Sys2Proof.Machine.execValue r s
  | .setHi r b => Sys2Proof.Machine.execSetHi r b s
  | .setLo r b => Sys2Proof.Machine.execSetLo r b s
  | .set r w => Sys2Proof.Machine.execSet r w s
  -- flags (41_flag_ops.md)
  | .zero => Sys2Proof.Machine.execZero s
  | .subtract => Sys2Proof.Machine.execSubtract s
  | .halfCarry => Sys2Proof.Machine.execHalfCarry s
  | .carry => Sys2Proof.Machine.execCarry s
  | .setZero f => Sys2Proof.Machine.execSetZero f s
  | .setSubtract f => Sys2Proof.Machine.execSetSubtract f s
  | .setHalfCarry f => Sys2Proof.Machine.execSetHalfCarry f s
  | .setCarry f => Sys2Proof.Machine.execSetCarry f s
  -- address space (42_read8.md, 43_write8.md)
  | .read8 w => Sys2Proof.Machine.execRead8 w s
  | .write8 w b => Sys2Proof.Machine.execWrite8 w b s

end Sys2Proof.Machine
end

