-- ==== Sys2Proof/Machine/Step.lean ====
section
/-! DEFINITION. One step: the block answers the next input (20_memory.md R71, 30_encoding.md R90). -/

namespace Sys2Proof.Machine

/-- One atomic step (70_reset_and_hazards.md R228). A legal word runs its operation; an ILLEGAL word gets the ILLEGAL
response and is dropped (60_exceptions.md R201, log entry 3); the reset event replaces the state (70_reset_and_hazards.md
R220); with nothing presented the block, which is passive, stays as it is. DEDUCED (log entry 4). -/
def step (s : State) : Host.Outcome State Fault Refusal :=
  match s.takeInput with
  | none => .next s
  | some (.reset, t) => .next t.resetEvent
  | some (.command c, t) =>
    match decode c with
    | .ok i => exec i t
    | .error _ => .next t.illegalResponse

/-- `s` with one command word placed before everything else the driver presents. A program comes to the block from
outside, word by word (70_reset_and_hazards.md R230, log entry 1). -/
def State.withFetchWord (s : State) (nbits w : Nat) : State :=
  { s with inputs := .command (tableCommand nbits w) :: s.inputs }

end Sys2Proof.Machine
end

