-- ==== Sys2Proof/Safety.lean ====
section
/-! DEFINITION. The terms claims are stated in: the invariant every step keeps, what an operation leaves unchanged, and
the reference reading of a run's accesses to one cell (20_memory.md R71). -/

namespace Sys2Proof.Machine

/-- `value & ~mask == 0` for AF (10_state.md R13). -/
def State.afMasked (s : State) : Prop := s.af &&& ~~~Config.afMask = 0

/-- Every store is in canonical form, within its size (10_state.md R24 to R27). -/
def State.storesWf (s : State) : Prop := ∀ st : Store, Memory.wf st.resetByte st.size (s.store st) = true

/-- The invariant of the block: the AF mask (R13), `wram_bank != 0` (R22), and stores in canonical form. -/
structure State.Inv (s : State) : Prop where
  /-- AF's low nibble is zero (R13). -/
  af : s.afMasked
  /-- The work-RAM bank is 1 to 7 (R22). -/
  bank : s.wramBank ≠ 0
  /-- The stores are in canonical form. -/
  stores : s.storesWf

/-- `t` holds what `s` holds in all five pairs and the program counter. -/
def SameRegisters (s t : State) : Prop := ∀ r : Reg, t.reg r = s.reg r

/-- `t` has the bank indices of `s`. -/
def SameBanks (s t : State) : Prop := t.vramBank = s.vramBank ∧ t.wramBank = s.wramBank

/-- Every cell of every store, and every address, reads in `t` as it does in `s`. -/
def SameMemory (s t : State) : Prop :=
  (∀ (st : Store) (i : Nat), t.readCell st i = s.readCell st i) ∧ ∀ a : Word, t.readByte a = s.readByte a

/-- What lies outside the block is as before: the Cartridge and the inputs still to come. -/
def SameOutside (s t : State) : Prop := t.cart = s.cart ∧ t.inputs = s.inputs

/-- The operation the next input makes the block run, if it is a legal command. -/
def State.nextOperation (s : State) : Option Instr :=
  match s.inputs with
  | .command c :: _ => (decode c).toOption
  | _ => none

/-- The next input is the reset event. -/
def State.nextIsReset (s : State) : Prop := ∃ rest, s.inputs = .reset :: rest

/-- The operations of the register file and its flags; the other two use the address space (20_memory.md R40). -/
def isRegisterOp : Instr → Bool
  | .hi _ | .lo _ | .value _ | .setHi _ _ | .setLo _ _ | .set _ _ => true
  | .zero | .subtract | .halfCarry | .carry => true
  | .setZero _ | .setSubtract _ | .setHalfCarry _ | .setCarry _ => true
  | .read8 _ | .write8 _ _ => false

/-- The getter of each flag (10_state.md R16). -/
def flagGetter : Flag → Instr
  | .zero => .zero
  | .subtract => .subtract
  | .halfCarry => .halfCarry
  | .carry => .carry

/-- The setter of each flag (10_state.md R16). -/
def flagSetter : Flag → Bool → Instr
  | .zero => .setZero
  | .subtract => .setSubtract
  | .halfCarry => .setHalfCarry
  | .carry => .setCarry

/-- The address lies in a region whose store the block owns: VRAM, WRAM0, WRAMX, OAM or HIGH (43_write8.md R190). -/
def blockOwned (a : Word) : Prop :=
  (0x8000 ≤ a.toNat ∧ a.toNat ≤ 0x9FFF) ∨ (0xC000 ≤ a.toNat ∧ a.toNat ≤ 0xDFFF) ∨
    (0xFE00 ≤ a.toNat ∧ a.toNat ≤ 0xFE9F) ∨ 0xFF00 ≤ a.toNat

/-- The address lies in one of the two regions of the external Cartridge (20_memory.md R60). -/
def cartOwned (a : Word) : Prop := a.toNat ≤ 0x7FFF ∨ (0xA000 ≤ a.toNat ∧ a.toNat ≤ 0xBFFF)

/-- REFERENCE for R71: the byte of cell `i` of `st` after the inputs, read off the inputs alone: the byte of the latest
WRITE8 that reaches the cell under the banks then in force, or the power-up byte after a later reset event, or else the
byte `b` it held before. `vb` and `wb` are the banks in force before the inputs. -/
def cellAfter (st : Store) (i : Nat) (vb : BitVec 1) (wb : BitVec 3) (b : Byte) : List Input → Byte
  | [] => b
  | .reset :: rest => cellAfter st i Config.vramBankReset Config.wramBankReset (st.resetByte i) rest
  | .command c :: rest =>
    match decode c with
    | .ok (.write8 a v) =>
      cellAfter st i (if a = Config.vbkAddr then vramBankOfByte v else vb)
        (if a = Config.svbkAddr then wramBankOfByte v else wb)
        (if target a vb wb = .cell st i then v else b) rest
    | _ => cellAfter st i vb wb b rest

end Sys2Proof.Machine
end

