-- ==== Sys2Proof/Certificates/Slice0/Obligations.lean ====
section
/-! DEFINITION. The statements for the provers. "R<n>" is a numbered rule of spec/; a clause the spec marks as its own
decision or derivation, or that is the model's choice, is named in the docstring. -/

open Sys2Proof Sys2Proof.Machine

/-! ## The command word -/

/-- The example words of 30_encoding.md section 5, written out bit by bit from R92 (the word is decision D9). -/
def Obligations.ExampleWordsDecode : Prop :=
  decode 0b00001001000000000000000000000000 = .ok (.hi .bc) ∧
  decode 0b00010000000000000000000000000000 = .ok (.lo .af) ∧
  decode 0b00011101000000000000000000000000 = .ok (.value .pc) ∧
  decode 0b00100000000000000000000010101011 = .ok (.setHi .af 0xAB) ∧
  decode 0b00101000000000000000000000001111 = .ok (.setLo .af 0x0F) ∧
  decode 0b00110000000100101111111100000000 = .ok (.set .af 0x12FF) ∧
  decode 0b01000000000000000000000000000000 = .ok .zero ∧
  decode 0b01111000000000000000000000000000 = .ok (.setCarry false) ∧
  decode 0b10000000111111110111000000000000 = .ok (.read8 0xFF70) ∧
  decode 0b10001000110100000101000001000010 = .ok (.write8 0xD050 0x42)

/-- `decode(encode(o)) = o` of R95 (decision D9): no bit of an operand is dropped. -/
def Obligations.DecodeOfEncodeIsTheOperation : Prop :=
  ∀ i : Instr, i.wellFormed = true → decode (encode i) = .ok i

/-- `encode(decode(c)) = c` of R95 for every legal word (decision D9): an operation has exactly one word, and the decoder
gives no operation the block lacks. -/
def Obligations.LegalWordIsTheWordOfItsOperation : Prop :=
  ∀ (c : Command) (i : Instr), decode c = .ok i → i.wellFormed = true ∧ encode i = c

/-- The reserved words of R98, R99 and R100 (decision D9). The reason names are the model's (log entry 13). -/
def Obligations.ReservedWordsAreIllegal : Prop :=
  (∀ c : Command, (c.toNat / 2 ^ 27 = 0 ∨ c.toNat / 2 ^ 27 = 7 ∨ 0x12 ≤ c.toNat / 2 ^ 27) →
    decode c = .error .reservedOpcode) ∧
  (∀ c : Command, c.toNat / 2 ^ 27 ∈ [0x01, 0x02, 0x04, 0x05] → 5 ≤ c.toNat / 2 ^ 24 % 8 →
    decode c = .error .registerSelect) ∧
  (∀ c : Command, c.toNat / 2 ^ 27 ∈ [0x03, 0x06] → 6 ≤ c.toNat / 2 ^ 24 % 8 → decode c = .error .registerSelect) ∧
  (∀ c : Command, 0x08 ≤ c.toNat / 2 ^ 27 → c.toNat / 2 ^ 27 ≤ 0x11 → c.toNat / 2 ^ 24 % 8 ≠ 0 →
    decode c = .error .registerSelect) ∧
  (∀ c : Command, c.toNat / 2 ^ 27 ∈ [0x01, 0x02, 0x03, 0x08, 0x09, 0x0A, 0x0B] → c.toNat % 2 ^ 24 ≠ 0 →
    ∃ e, decode c = .error e) ∧
  (∀ c : Command, c.toNat / 2 ^ 27 ∈ [0x04, 0x05] → c.toNat / 2 ^ 8 % 2 ^ 16 ≠ 0 → ∃ e, decode c = .error e) ∧
  (∀ c : Command, c.toNat / 2 ^ 27 ∈ [0x06, 0x10] → c.toNat % 2 ^ 8 ≠ 0 → ∃ e, decode c = .error e) ∧
  (∀ c : Command, c.toNat / 2 ^ 27 ∈ [0x0C, 0x0D, 0x0E, 0x0F] → 2 ≤ c.toNat % 2 ^ 24 → ∃ e, decode c = .error e)

/-! ## One step -/

/-- When the driver's next word decodes, the step takes the word and is `exec` of the operation. -/
def Obligations.StepRunsTheDecodedOperation : Prop :=
  ∀ (s : State) (c : Command) (rest : List Input) (i : Instr),
    s.inputs = .command c :: rest → decode c = .ok i → step s = exec i { s with inputs := rest }

/-- R201 and R101 (decision D9; log entry 3): an ILLEGAL word changes no state and makes no Cartridge call, `ill` = 1,
`rsp` = 0, and the next input is accepted. -/
def Obligations.IllegalWordChangesNothing : Prop :=
  ∀ (s : State) (c : Command) (rest : List Input) (e : Illegal),
    s.inputs = .command c :: rest → decode c = .error e →
      step s = .next { s with rsp := 0, ill := true, inputs := rest }

/-- R220 and R223 (decision D12): the reset event gives the power-up state whatever the block held; the Cartridge is not
touched. That `rsp` and `ill` go back to their power-up values is the model's choice (log entry 2); the statement says
nothing of them. -/
def Obligations.ResetEventGivesPowerUpState : Prop :=
  ∀ (s : State) (rest : List Input), s.inputs = .reset :: rest →
    ∃ t, step s = .next t ∧ SameRegisters State.reset t ∧ SameBanks State.reset t ∧
      (∀ st, t.store st = State.reset.store st) ∧ t.cart = s.cart ∧ t.inputs = rest

/-- With nothing presented the passive block stays as it is (DEDUCED from R18, R39 and R208; log entry 4). -/
def Obligations.IdleBlockStaysAsItIs : Prop :=
  ∀ s : State, s.inputs = [] → step s = .next s

/-- R200 and R210: no operation faults or stops, and, with decision D13 (R230), no step does. Three cases are the model's
own reading: an ILLEGAL word is a next state, where R201 advises a refusal at the decoder (decision D9, log entry 3); a
step with nothing presented is idle (log entry 4); and `exec` of HI, LO, SETHI and SETLO of PC, which no word decodes to,
completes only as the ILLEGAL response (decision D7, log entry 12). -/
def Obligations.NoOperationAndNoStepStops : Prop :=
  (∀ (i : Instr) (s : State), ∃ t, exec i s = .next t) ∧ ∀ s : State, ∃ t, step s = .next t

/-- R97 (decision D9): a legal operation answers with `ill` clear; a byte comes zero extended, a flag as 1 or 0, and the
eight operations without a result answer 0. -/
def Obligations.ResponsesHaveTheStatedForm : Prop :=
  ∀ (i : Instr) (s t : State), i.wellFormed = true → exec i s = .next t →
    t.ill = false ∧
    match i with
    | .hi _ | .lo _ | .read8 _ => t.rsp.toNat ≤ 0xFF
    | .value r => t.rsp = s.reg r
    | .zero | .subtract | .halfCarry | .carry => t.rsp = 0 ∨ t.rsp = 1
    | .setHi _ _ | .setLo _ _ | .set _ _ => t.rsp = 0
    | .setZero _ | .setSubtract _ | .setHalfCarry _ | .setCarry _ => t.rsp = 0
    | .write8 _ _ => t.rsp = 0

/-! ## Reset -/

/-- R33: all pairs zero, hence the accumulator, the flags byte and the four flags. -/
def Obligations.ResetRegisterPairsAreZero : Prop :=
  State.reset.reg .af = 0 ∧ State.reset.reg .bc = 0 ∧ State.reset.reg .de = 0 ∧ State.reset.reg .hl = 0 ∧
  State.reset.reg .sp = 0 ∧ hiByte (State.reset.reg .af) = 0 ∧ loByte (State.reset.reg .af) = 0 ∧
  ∀ x : Flag, State.reset.flag x = false

/-- R37: every address of high memory reads after reset as the table says; conflict C1 is decided for the table. -/
def Obligations.ResetHighMemoryIsTheTable : Prop :=
  let table : List (Nat × Byte) :=
    [(0x04, 0x1E), (0x05, 0x00), (0x06, 0x00), (0x07, 0xF8), (0x0F, 0xE1), (0x10, 0x80), (0x11, 0xBF), (0x12, 0xF3),
      (0x14, 0xBF), (0x16, 0x3F), (0x17, 0x00), (0x19, 0xBF), (0x1A, 0x7F), (0x1B, 0xFF), (0x1C, 0x9F), (0x1E, 0xBF),
      (0x20, 0xFF), (0x21, 0x00), (0x22, 0x00), (0x23, 0xBF), (0x24, 0x77), (0x25, 0xF3), (0x26, 0xF1), (0x40, 0x91),
      (0x41, 0x85), (0x42, 0x00), (0x43, 0x00), (0x45, 0x00), (0x47, 0xFC), (0x48, 0xFF), (0x49, 0xFF), (0x4A, 0x00),
      (0x4B, 0x00), (0xFF, 0x00)]
  table.length = 34 ∧ (table.filter fun p => p.2 ≠ 0).length = 23 ∧
  (∀ (a : Word) (k : Nat) (v : Byte), (k, v) ∈ table → a.toNat = 0xFF00 + k → State.reset.readByte a = v) ∧
  (∀ a : Word, 0xFF00 ≤ a.toNat → (∀ v : Byte, (a.toNat - 0xFF00, v) ∉ table) → State.reset.readByte a = 0)

/-- R34, R35 and R36 with the spec's decisions D2, D5 and D8 (log entry 6). -/
def Obligations.ResetDecidedValues : Prop :=
  State.reset.reg .pc = Config.pcReset ∧ Config.pcReset = 0x0100 ∧ State.reset.vramBank = 0 ∧ State.reset.wramBank = 1 ∧
  ∀ i : Nat, State.reset.readCell .vram i = 0 ∧ State.reset.readCell .wram i = 0 ∧ State.reset.readCell .oam i = 0

/-- The invariant holds after reset: AF's low nibble zero (R13), `wram_bank` not 0 (R22, decision D4), and every store in
canonical form within its size, which is the model's own form of a store (DESIGN CHOICE, log entry 11) with the sizes of
decision D6 (log entry 10). -/
def Obligations.ResetMeetsTheInvariant : Prop := State.reset.Inv

/-- Every step keeps the invariant: AF's low nibble zero (R13), `wram_bank` not 0 (R22, decision D4), every store in
canonical form (the model's own, log entry 11) within its size (decision D6, log entry 10; R52). -/
def Obligations.StepKeepsTheInvariant : Prop :=
  ∀ s t : State, s.Inv → step s = .next t → t.Inv

/-! ## Register pairs -/

/-- R120. The encoding clause is decision D9. -/
def Obligations.HiReturnsTheHighByte : Prop :=
  (∀ r : Reg, r.isPair = true → (encode (.hi r)).toNat = 0x08000000 + r.code.toNat * 2 ^ 24) ∧
  (∀ (r : Reg) (s : State), r.isPair = true →
    exec (.hi r) s = .next { s with rsp := s.reg r >>> 8, ill := false }) ∧
  (∀ c : Command, decode c ≠ .ok (.hi .pc)) ∧
  (∀ s : State, s.bc = 0xBE0F → exec (.hi .bc) s = .next { s with rsp := 0xBE, ill := false })

/-- R121. The encoding clause is decision D9. "`LO AF & 0x0F == 0` always" is stated where R13 holds, which every step
keeps. -/
def Obligations.LoReturnsTheLowByte : Prop :=
  (∀ r : Reg, r.isPair = true → (encode (.lo r)).toNat = 0x10000000 + r.code.toNat * 2 ^ 24) ∧
  (∀ (r : Reg) (s : State), r.isPair = true →
    exec (.lo r) s = .next { s with rsp := s.reg r &&& 0x00FF, ill := false }) ∧
  (∀ s t : State, s.afMasked → exec (.lo .af) s = .next t → t.rsp &&& 0x000F = 0) ∧
  (∀ c : Command, decode c ≠ .ok (.lo .pc)) ∧
  (∀ s : State, s.af = 0x1280 → exec (.lo .af) s = .next { s with rsp := 0x80, ill := false })

/-- R122. The encoding clause is decision D9, the value of PC_RESET decision D2. -/
def Obligations.ValueReturnsTheRegister : Prop :=
  (∀ r : Reg, (encode (.value r)).toNat = 0x18000000 + r.code.toNat * 2 ^ 24) ∧
  (∀ (r : Reg) (s : State), exec (.value r) s = .next { s with rsp := s.reg r, ill := false }) ∧
  (∀ s t : State, s.afMasked → exec (.value .af) s = .next t → t.rsp &&& 0x000F = 0) ∧
  (∀ (r : Reg) (s h l v : State), r.isPair = true → exec (.hi r) s = .next h → exec (.lo r) s = .next l →
    exec (.value r) s = .next v → v.rsp = (h.rsp <<< 8) ||| l.rsp) ∧
  exec (.value .pc) State.reset = .next { State.reset with rsp := Config.pcReset, ill := false } ∧
  Config.pcReset = 0x0100 ∧
  exec (.value .sp) State.reset = .next { State.reset with rsp := 0, ill := false }

/-- R123: per pair, the new byte over the kept byte, masked for AF. The encoding clause is decision D9. -/
def Obligations.SetHiReplacesTheHighByte : Prop :=
  (∀ (r : Reg) (b : Byte), r.isPair = true →
    (encode (.setHi r b)).toNat = 0x20000000 + r.code.toNat * 2 ^ 24 + b.toNat) ∧
  (∀ c b, decode c ≠ .ok (.setHi .pc b)) ∧
  ∀ (b : Byte) (s : State),
    exec (.setHi .af b) s =
      .next { s with af := (b.setWidth 16 <<< 8 ||| s.af &&& 0x00FF) &&& 0xFFF0, rsp := 0, ill := false } ∧
    (s.afMasked → exec (.setHi .af b) s =
      .next { s with af := b.setWidth 16 <<< 8 ||| s.af &&& 0x00FF, rsp := 0, ill := false }) ∧
    exec (.setHi .bc b) s = .next { s with bc := b.setWidth 16 <<< 8 ||| s.bc &&& 0x00FF, rsp := 0, ill := false } ∧
    exec (.setHi .de b) s = .next { s with de := b.setWidth 16 <<< 8 ||| s.de &&& 0x00FF, rsp := 0, ill := false } ∧
    exec (.setHi .hl b) s = .next { s with hl := b.setWidth 16 <<< 8 ||| s.hl &&& 0x00FF, rsp := 0, ill := false } ∧
    exec (.setHi .sp b) s = .next { s with sp := b.setWidth 16 <<< 8 ||| s.sp &&& 0x00FF, rsp := 0, ill := false }

/-- R124: per pair, the kept byte over the new byte, masked for AF. The encoding clause is decision D9. -/
def Obligations.SetLoReplacesTheLowByte : Prop :=
  (∀ (r : Reg) (b : Byte), r.isPair = true →
    (encode (.setLo r b)).toNat = 0x28000000 + r.code.toNat * 2 ^ 24 + b.toNat) ∧
  (∀ c b, decode c ≠ .ok (.setLo .pc b)) ∧
  ∀ (b : Byte) (s : State),
    exec (.setLo .af b) s =
      .next { s with af := s.af &&& 0xFF00 ||| b.setWidth 16 &&& 0x00F0, rsp := 0, ill := false } ∧
    exec (.setLo .bc b) s = .next { s with bc := s.bc &&& 0xFF00 ||| b.setWidth 16, rsp := 0, ill := false } ∧
    exec (.setLo .de b) s = .next { s with de := s.de &&& 0xFF00 ||| b.setWidth 16, rsp := 0, ill := false } ∧
    exec (.setLo .hl b) s = .next { s with hl := s.hl &&& 0xFF00 ||| b.setWidth 16, rsp := 0, ill := false } ∧
    exec (.setLo .sp b) s = .next { s with sp := s.sp &&& 0xFF00 ||| b.setWidth 16, rsp := 0, ill := false }

/-- R125: the whole value, masked for AF, all 16 bits for every other register. The encoding clause is decision D9. -/
def Obligations.SetReplacesTheWholeValue : Prop :=
  (∀ (r : Reg) (w : Word),
    (encode (.set r w)).toNat = 0x30000000 + r.code.toNat * 2 ^ 24 + w.toNat * 2 ^ 8) ∧
  ∀ (w : Word) (s : State),
    exec (.set .af w) s = .next { s with af := w &&& 0xFFF0, rsp := 0, ill := false } ∧
    exec (.set .bc w) s = .next { s with bc := w, rsp := 0, ill := false } ∧
    exec (.set .de w) s = .next { s with de := w, rsp := 0, ill := false } ∧
    exec (.set .hl w) s = .next { s with hl := w, rsp := 0, ill := false } ∧
    exec (.set .sp w) s = .next { s with sp := w, rsp := 0, ill := false } ∧
    exec (.set .pc w) s = .next { s with pc := w, rsp := 0, ill := false }

/-- R19 and R99 (decision D7): a byte view of PC has no word, and asked of `exec` it has the ILLEGAL response (log entry
12). -/
def Obligations.ByteViewsOfPcAreIllegal : Prop :=
  (∀ (c : Command) (i : Instr), decode c = .ok i → i ≠ .hi .pc ∧ i ≠ .lo .pc ∧ ∀ b, i ≠ .setHi .pc b ∧ i ≠ .setLo .pc b) ∧
  ∀ (b : Byte) (s : State),
    exec (.hi .pc) s = .next { s with rsp := 0, ill := true } ∧
    exec (.lo .pc) s = .next { s with rsp := 0, ill := true } ∧
    exec (.setHi .pc b) s = .next { s with rsp := 0, ill := true } ∧
    exec (.setLo .pc b) s = .next { s with rsp := 0, ill := true }

/-- R13: after any mutation of AF its low nibble is zero, whatever AF held before; it is zero after power-up and no step
makes it anything else. -/
def Obligations.AfLowNibbleIsZeroAfterEveryMutation : Prop :=
  State.reset.af &&& 0x000F = 0 ∧
  ∀ (s t : State) (w : Word) (b : Byte) (x : Flag) (f : Bool),
    (exec (.set .af w) s = .next t ∨ exec (.setHi .af b) s = .next t ∨ exec (.setLo .af b) s = .next t ∨
      exec (flagSetter x f) s = .next t ∨ (s.af &&& 0x000F = 0 ∧ step s = .next t)) → t.af &&& 0x000F = 0

/-- R15: a write of one byte of AF never changes the other byte. -/
def Obligations.AccumulatorAndFlagsByteAreDistinct : Prop :=
  ∀ (s t : State) (b : Byte), s.afMasked →
    (exec (.setHi .af b) s = .next t → hiByte t.af = b ∧ loByte t.af = loByte s.af) ∧
    (exec (.setLo .af b) s = .next t → hiByte t.af = hiByte s.af ∧ loByte t.af = b &&& 0xF0)

/-- The law "SET as two byte writes" (40_register_pair_ops.md section 4, derived): in either order. -/
def Obligations.TwoByteWritesMakeASet : Prop :=
  ∀ (r : Reg) (w : Word) (s t₁ t₂ u₁ u₂ : State), r.isPair = true →
    exec (.setHi r (hiByte w)) s = .next t₁ → exec (.setLo r (loByte w)) t₁ = .next t₂ →
    exec (.setLo r (loByte w)) s = .next u₁ → exec (.setHi r (hiByte w)) u₁ = .next u₂ →
      exec (.set r w) s = .next t₂ ∧ u₂ = t₂

/-- The laws "read after SET", "read after SETHI" and "read after SETLO" (40_register_pair_ops.md section 4, derived). -/
def Obligations.ReadsAfterRegisterWrites : Prop :=
  (∀ (r : Reg) (w : Word) (s t : State), exec (.set r w) s = .next t →
    exec (.value r) t = .next { t with rsp := w &&& (if r = .af then 0xFFF0 else 0xFFFF), ill := false }) ∧
  (∀ (r : Reg) (b : Byte) (s t : State), r.isPair = true → exec (.setHi r b) s = .next t →
    exec (.hi r) t = .next { t with rsp := b.setWidth 16, ill := false } ∧
    ((r = .af → s.afMasked) → exec (.lo r) t = .next { t with rsp := s.reg r &&& 0x00FF, ill := false })) ∧
  (∀ (r : Reg) (b : Byte) (s t : State), r.isPair = true → exec (.setLo r b) s = .next t →
    exec (.hi r) t = .next { t with rsp := s.reg r >>> 8, ill := false } ∧
    exec (.lo r) t =
      .next { t with rsp := b.setWidth 16 &&& (if r = .af then 0x00F0 else 0x00FF), ill := false })

/-! ## What an operation leaves unchanged -/

/-- Frame of the operations that only answer (R128, R152, R171, the first and last derived): HI, LO, VALUE, the four flag
getters and READ8 change no register, no bank and no byte of memory, and make no write call to the Cartridge. That the
`CartRead` a READ8 of a cartridge address makes does not change the Cartridge is decision D11 (R62; log entry 5, DESIGN
CHOICE, unsafe). -/
def Obligations.ReadingOperationsChangeNothing : Prop :=
  ∀ (i : Instr) (s t : State),
    ((∃ r, i = .hi r ∨ i = .lo r ∨ i = .value r) ∨ (∃ x, i = flagGetter x) ∨ ∃ w, i = .read8 w) →
      exec i s = .next t → SameRegisters s t ∧ SameBanks s t ∧ SameMemory s t ∧ SameOutside s t

/-- Frame of SETHI, SETLO and SET (R126): only the named register may change. -/
def Obligations.RegisterWritesChangeOneRegister : Prop :=
  ∀ (r : Reg) (b : Byte) (w : Word) (s t : State),
    (exec (.setHi r b) s = .next t ∨ exec (.setLo r b) s = .next t ∨ exec (.set r w) s = .next t) →
      (∀ q : Reg, q ≠ r → t.reg q = s.reg q) ∧ (r ≠ .af → ∀ x : Flag, t.flag x = s.flag x) ∧
      SameBanks s t ∧ SameMemory s t ∧ SameOutside s t

/-- Frame of the flag setters (R150): the flag's bit takes the value, every other bit of AF and everything else stays;
the other three getters and HI AF answer as before. -/
def Obligations.FlagSetterChangesOneBit : Prop :=
  ∀ (x : Flag) (f : Bool) (s t : State), s.afMasked → exec (flagSetter x f) s = .next t →
    t.af.getLsbD (flagBit x) = f ∧ (∀ k : Nat, k ≠ flagBit x → t.af.getLsbD k = s.af.getLsbD k) ∧
    (∀ q : Reg, q ≠ .af → t.reg q = s.reg q) ∧ SameBanks s t ∧ SameMemory s t ∧ SameOutside s t ∧
    (∀ (y : Flag) (g : State), y ≠ x → exec (flagGetter y) s = .next g →
      exec (flagGetter y) t = .next { t with rsp := g.rsp, ill := false }) ∧
    exec (.hi .af) t = .next { t with rsp := s.af >>> 8, ill := false }

/-- Frame of WRITE8, cell by cell (R191, derived): the cell the address reaches under the banks in force at the start
takes the byte; every other cell of every store, and so every bank not selected, is as before; no register changes; a
bank index changes only at its own select register; the Cartridge is called only for the two cartridge regions. -/
def Obligations.Write8ChangesOneCell : Prop :=
  ∀ (a : Word) (v : Byte) (s t : State), exec (.write8 a v) s = .next t →
    SameRegisters s t ∧ t.inputs = s.inputs ∧
    (∀ (st : Store) (i : Nat), target a s.vramBank s.wramBank ≠ .cell st i → t.readCell st i = s.readCell st i) ∧
    (s.storesWf → ∀ (st : Store) (i : Nat), target a s.vramBank s.wramBank = .cell st i → t.readCell st i = v) ∧
    (a ≠ Config.vbkAddr → t.vramBank = s.vramBank) ∧ (a ≠ Config.svbkAddr → t.wramBank = s.wramBank) ∧
    (¬cartOwned a → t.cart = s.cart)

/-- R191 seen through addresses (derived): after a WRITE8 every other address reads as before, except that a bank-select
write shows the newly selected bank and a call may change what the Cartridge answers. -/
def Obligations.Write8LeavesOtherAddressesAlone : Prop :=
  ∀ (a : Word) (v : Byte) (s t : State), s.Inv → exec (.write8 a v) s = .next t →
    ∀ a' : Word, a' ≠ a →
      (a = Config.vbkAddr → a'.toNat < 0x8000 ∨ 0x9FFF < a'.toNat) →
      (a = Config.svbkAddr → a'.toNat < 0xD000 ∨ 0xDFFF < a'.toNat) →
      ¬(cartOwned a ∧ cartOwned a') → t.readByte a' = s.readByte a'

/-! ## Flags -/

/-- R141 to R144. The encoding clauses are decision D9. -/
def Obligations.FlagGettersReturnTheirBit : Prop :=
  encode .zero = 0x40000000 ∧ encode .subtract = 0x48000000 ∧ encode .halfCarry = 0x50000000 ∧
  encode .carry = 0x58000000 ∧
  ∀ s : State,
    exec .zero s = .next { s with rsp := s.af >>> 7 &&& 1, ill := false } ∧
    exec .subtract s = .next { s with rsp := s.af >>> 6 &&& 1, ill := false } ∧
    exec .halfCarry s = .next { s with rsp := s.af >>> 5 &&& 1, ill := false } ∧
    exec .carry s = .next { s with rsp := s.af >>> 4 &&& 1, ill := false }

/-- R145 to R148: the value of AF each setter leaves, in every state; where R13 holds the mask changes nothing, so only
the one bit is written. The encoding clauses are decision D9. -/
def Obligations.FlagSettersSetOrClearTheirBit : Prop :=
  (∀ f : Bool, encode (.setZero f) = 0x60000000 ||| (if f then 1 else 0) ∧
    encode (.setSubtract f) = 0x68000000 ||| (if f then 1 else 0) ∧
    encode (.setHalfCarry f) = 0x70000000 ||| (if f then 1 else 0) ∧
    encode (.setCarry f) = 0x78000000 ||| (if f then 1 else 0)) ∧
  (∀ s : State,
    exec (.setZero true) s = .next { s with af := (s.af ||| 0x0080) &&& 0xFFF0, rsp := 0, ill := false } ∧
    exec (.setZero false) s = .next { s with af := s.af &&& 0xFF70, rsp := 0, ill := false } ∧
    exec (.setSubtract true) s = .next { s with af := (s.af ||| 0x0040) &&& 0xFFF0, rsp := 0, ill := false } ∧
    exec (.setSubtract false) s = .next { s with af := s.af &&& 0xFFB0, rsp := 0, ill := false } ∧
    exec (.setHalfCarry true) s = .next { s with af := (s.af ||| 0x0020) &&& 0xFFF0, rsp := 0, ill := false } ∧
    exec (.setHalfCarry false) s = .next { s with af := s.af &&& 0xFFD0, rsp := 0, ill := false } ∧
    exec (.setCarry true) s = .next { s with af := (s.af ||| 0x0010) &&& 0xFFF0, rsp := 0, ill := false } ∧
    exec (.setCarry false) s = .next { s with af := s.af &&& 0xFFE0, rsp := 0, ill := false }) ∧
  (∀ (s t : State) (x : Flag) (f : Bool), s.afMasked → exec (flagSetter x f) s = .next t →
    ∀ k : Nat, k ≠ flagBit x → t.af.getLsbD k = s.af.getLsbD k)

/-- R140 and R149: a flag setter is the byte write of the low byte of AF with the flag's bit set or cleared, so the mask
is applied again. -/
def Obligations.FlagSetterIsAByteWriteOfAf : Prop :=
  flagBit .zero = 7 ∧ flagBit .subtract = 6 ∧ flagBit .halfCarry = 5 ∧ flagBit .carry = 4 ∧
  ∀ (x : Flag) (f : Bool) (s : State) (lo : Byte),
    lo = (if f then loByte s.af ||| 1#8 <<< flagBit x else loByte s.af &&& ~~~(1#8 <<< flagBit x)) →
      exec (flagSetter x f) s = exec (.setLo .af lo) s ∧
      exec (flagSetter x f) s =
        .next { s with af := (s.af &&& 0xFF00 ||| lo.setWidth 16) &&& 0xFFF0, rsp := 0, ill := false }

/-- "get after set" and "frame" (41_flag_ops.md section 4, derived): the getter of the set flag returns the value, the
others and HI AF what they returned before. -/
def Obligations.FlagReadsBackAndOthersSurvive : Prop :=
  ∀ (x y : Flag) (f : Bool) (s t g : State), exec (flagSetter x f) s = .next t → exec (flagGetter y) s = .next g →
    (y = x → exec (flagGetter y) t = .next { t with rsp := if f then 1 else 0, ill := false }) ∧
    (y ≠ x → exec (flagGetter y) t = .next { t with rsp := g.rsp, ill := false }) ∧
    exec (.hi .af) t = .next { t with rsp := s.af >>> 8, ill := false }

/-- "setters commute" (41_flag_ops.md section 4, derived): different flags in either order; of the same flag the later
wins. -/
def Obligations.FlagSettersCommute : Prop :=
  (∀ (x y : Flag) (f g : Bool) (s t₁ t₂ u₁ u₂ : State), x ≠ y →
    exec (flagSetter x f) s = .next t₁ → exec (flagSetter y g) t₁ = .next t₂ →
    exec (flagSetter y g) s = .next u₁ → exec (flagSetter x f) u₁ = .next u₂ → t₂ = u₂) ∧
  (∀ (x : Flag) (f g : Bool) (s t : State), exec (flagSetter x f) s = .next t →
    exec (flagSetter x g) t = exec (flagSetter x g) s)

/-- "flags byte" (41_flag_ops.md section 4, derived) where R13 holds: LO AF is the four getters' answers side by side. -/
def Obligations.FlagsByteIsTheFourFlags : Prop :=
  ∀ s l z n h c : State, s.afMasked → exec (.lo .af) s = .next l → exec .zero s = .next z → exec .subtract s = .next n →
    exec .halfCarry s = .next h → exec .carry s = .next c →
      l.rsp = z.rsp <<< 7 ||| n.rsp <<< 6 ||| h.rsp <<< 5 ||| c.rsp <<< 4

/-! ## Rules of the whole block -/

/-- R17 (derived): a flag changes only by its setter, by SETLO or SET on AF, or by the reset event. -/
def Obligations.FlagsChangeOnlyByTheirWriters : Prop :=
  ∀ (s t : State) (x : Flag), step s = .next t → t.flag x ≠ s.flag x →
    s.nextIsReset ∨ (∃ f, s.nextOperation = some (flagSetter x f)) ∨ (∃ b, s.nextOperation = some (.setLo .af b)) ∨
      ∃ w, s.nextOperation = some (.set .af w)

/-- R18: the program counter changes only when the driver writes it and at reset; any value is read back unchanged; and no
operation but VALUE PC looks at it, so none reads memory at it. -/
def Obligations.PcChangesOnlyBySetPcAndReset : Prop :=
  (∀ s t : State, step s = .next t → t.pc ≠ s.pc →
    s.nextIsReset ∨ ∃ w, s.nextOperation = some (.set .pc w) ∧ t.pc = w) ∧
  (∀ (w : Word) (s t : State), exec (.set .pc w) s = .next t →
    exec (.value .pc) t = .next { t with rsp := w, ill := false }) ∧
  ∀ (i : Instr) (s t : State) (w : Word), i ≠ .value .pc → (∀ v, i ≠ .set .pc v) → exec i s = .next t →
    exec i { s with pc := w } = .next { t with pc := w }

/-- "independence" (40_register_pair_ops.md section 4, derived): a pair changes only by an operation that names it, AF
also by a flag setter, or by the reset event; in particular SP has no other writer (R20). -/
def Obligations.PairChangesOnlyByItsWriters : Prop :=
  ∀ (s t : State) (r : Reg), step s = .next t → t.reg r ≠ s.reg r →
    s.nextIsReset ∨ (∃ b, s.nextOperation = some (.setHi r b)) ∨ (∃ b, s.nextOperation = some (.setLo r b)) ∨
      (∃ w, s.nextOperation = some (.set r w)) ∨ (r = .af ∧ ∃ x f, s.nextOperation = some (flagSetter x f))

/-- R23: nothing but a WRITE8 to its select register, or the reset event, changes a bank index; VBK_ADDR and SVBK_ADDR
are decision D3. -/
def Obligations.BanksChangeOnlyBySelectWrites : Prop :=
  ∀ s t : State, step s = .next t →
    (t.vramBank ≠ s.vramBank → s.nextIsReset ∨ ∃ v, s.nextOperation = some (.write8 Config.vbkAddr v)) ∧
    (t.wramBank ≠ s.wramBank → s.nextIsReset ∨ ∃ v, s.nextOperation = some (.write8 Config.svbkAddr v))

/-- R70, R181 and R183 (R70 derived): a WRITE8 to a cartridge region makes exactly one write call, with the address and
the byte unchanged, and nothing else makes a write call or changes the Cartridge; the reset event does not either (R38,
R223: decision D12, log entry 15). READ8 of these regions calls `CartRead` (R60), which changes nothing by decision D11
(R62). The Cartridge as the list of its write calls is the model's form (log entry 5). -/
def Obligations.CartridgeChangedOnlyByWriteCalls : Prop :=
  (∀ (a : Word) (v : Byte) (s : State), a.toNat ≤ 0x7FFF →
    exec (.write8 a v) s = .next { s with cart := s.cart ++ [.writeROM a v], rsp := 0, ill := false }) ∧
  (∀ (a : Word) (v : Byte) (s : State), 0xA000 ≤ a.toNat → a.toNat ≤ 0xBFFF →
    exec (.write8 a v) s = .next { s with cart := s.cart ++ [.writeRAM a v], rsp := 0, ill := false }) ∧
  (∀ s t : State, step s = .next t → t.cart ≠ s.cart →
    ∃ a v, s.nextOperation = some (.write8 a v) ∧
      ((a.toNat ≤ 0x7FFF ∧ t.cart = s.cart ++ [.writeROM a v]) ∨
        (0xA000 ≤ a.toNat ∧ a.toNat ≤ 0xBFFF ∧ t.cart = s.cart ++ [.writeRAM a v])))

/-- R126 and R152: the register and flag operations neither read nor change the address space: with other banks, stores
and Cartridge they do the same to the registers and give the same answer. -/
def Obligations.RegisterOperationsIgnoreTheAddressSpace : Prop :=
  ∀ (i : Instr) (s t : State) (vb : BitVec 1) (wb : BitVec 3) (m₁ m₂ m₃ m₄ : Memory) (c : Cartridge),
    isRegisterOp i = true → exec i s = .next t →
      exec i { s with vramBank := vb, wramBank := wb, vram := m₁, wram := m₂, oam := m₃, high := m₄, cart := c } =
        .next { t with vramBank := vb, wramBank := wb, vram := m₁, wram := m₂, oam := m₃, high := m₄, cart := c }

/-- R171 and R180: READ8 and WRITE8 neither read nor change a register: with other registers they do the same to the
address space and give the same answer. -/
def Obligations.AddressOperationsIgnoreTheRegisters : Prop :=
  ∀ (i : Instr) (s t : State) (x₁ x₂ x₃ x₄ x₅ x₆ : Word),
    isRegisterOp i = false → exec i s = .next t →
      exec i { s with af := x₁, bc := x₂, de := x₃, hl := x₄, sp := x₅, pc := x₆ } =
        .next { t with af := x₁, bc := x₂, de := x₃, hl := x₄, sp := x₅, pc := x₆ }

/-! ## The address space -/

/-- R42: the nine regions by their bounds; every address is in exactly one. -/
def Obligations.RegionsPartitionTheAddresses : Prop :=
  ∀ a : Word,
    (region a = .rom ↔ a.toNat ≤ 0x7FFF) ∧ (region a = .vram ↔ 0x8000 ≤ a.toNat ∧ a.toNat ≤ 0x9FFF) ∧
    (region a = .xram ↔ 0xA000 ≤ a.toNat ∧ a.toNat ≤ 0xBFFF) ∧ (region a = .wram0 ↔ 0xC000 ≤ a.toNat ∧ a.toNat ≤ 0xCFFF) ∧
    (region a = .wramx ↔ 0xD000 ≤ a.toNat ∧ a.toNat ≤ 0xDFFF) ∧ (region a = .echo ↔ 0xE000 ≤ a.toNat ∧ a.toNat ≤ 0xFDFF) ∧
    (region a = .oam ↔ 0xFE00 ≤ a.toNat ∧ a.toNat ≤ 0xFE9F) ∧
    (region a = .unusable ↔ 0xFEA0 ≤ a.toNat ∧ a.toNat ≤ 0xFEFF) ∧ (region a = .high ↔ 0xFF00 ≤ a.toNat)

/-- The decoder by address bits after R43 (derived), all nine regions. -/
def Obligations.RegionsDecodeByHighAddressBits : Prop :=
  ∀ a : Word,
    (a.getLsbD 15 = false ↔ region a = .rom) ∧ (a.extractLsb' 13 3 = 0b100 ↔ region a = .vram) ∧
    (a.extractLsb' 13 3 = 0b101 ↔ region a = .xram) ∧ (a.extractLsb' 12 4 = 0xC ↔ region a = .wram0) ∧
    (a.extractLsb' 12 4 = 0xD ↔ region a = .wramx) ∧ (a.extractLsb' 8 8 = 0xFF ↔ region a = .high) ∧
    (a.extractLsb' 8 8 = 0xFE ∧ a.extractLsb' 0 8 ≤ 0x9F ↔ region a = .oam) ∧
    (a.extractLsb' 8 8 = 0xFE ∧ 0x9F < a.extractLsb' 0 8 ↔ region a = .unusable) ∧
    (a.extractLsb' 13 3 = 0b111 ∧ a.extractLsb' 8 8 ≠ 0xFF ∧ a.extractLsb' 8 8 ≠ 0xFE ↔ region a = .echo)

/-- The offsets of R47 to R51 inside their regions (bit forms and R52 derived): each equals the formula over the integers,
so no subtraction borrows; it is the bit field or, for WRAMX, the sum the rule gives; and it stays below 0x10000, within
the bounds of R52 where `wram_bank` is not 0 (R22, decision D4). -/
def Obligations.OffsetsAreBitFields : Prop :=
  ∀ (a : Word) (vb : BitVec 1) (wb : BitVec 3),
    (region a = .vram → 0x8000 ≤ a.toNat ∧ (vramOff a vb : Int) = (a.toNat : Int) - 0x8000 + (vb.toNat : Int) * 0x2000 ∧
      vramOff a vb = (vb ++ a.extractLsb' 0 13).toNat ∧ vramOff a vb ≤ 0x3FFF) ∧
    (region a = .wram0 → 0xC000 ≤ a.toNat ∧ (wram0Off a : Int) = (a.toNat : Int) - 0xC000 ∧
      wram0Off a = (a.extractLsb' 0 12).toNat ∧ wram0Off a ≤ 0x0FFF) ∧
    (region a = .wramx → 0xC000 ≤ a.toNat ∧
      (wramBankedOff a wb : Int) = ((a.toNat : Int) - 0xC000) + (wb.toNat : Int) * 0x1000 ∧
      wramBankedOff a wb = (wb.toNat + 1) * 0x1000 + (a.extractLsb' 0 12).toNat ∧
      wramBankedOff a wb ≤ 0x8FFF ∧ (wb ≠ 0 → 0x2000 ≤ wramBankedOff a wb)) ∧
    (region a = .oam → 0xFE00 ≤ a.toNat ∧ (oamOff a : Int) = (a.toNat : Int) - 0xFE00 ∧
      oamOff a = (a.extractLsb' 0 8).toNat ∧ oamOff a ≤ 0x9F) ∧
    (region a = .high → 0xFF00 ≤ a.toNat ∧ (highOff a : Int) = (a.toNat : Int) - 0xFF00 ∧
      highOff a = (a.extractLsb' 0 8).toNat ∧ highOff a ≤ 0xFF)

/-- R52 and R25 (R52 derived): every address that reaches a cell reaches one inside its store, and with a work-RAM bank of
1 to 7 never the hole at 0x1000 to 0x1FFF of WRAM. -/
def Obligations.ReachedCellsLieInTheirStores : Prop :=
  ∀ (a : Word) (vb : BitVec 1) (wb : BitVec 3) (st : Store) (i : Nat), target a vb wb = .cell st i →
    i < st.size ∧ (wb ≠ 0 → st = .wram → i < 0x1000 ∨ 0x2000 ≤ i)

/-- R191 (derived): under the same banks two different addresses never reach the same cell. -/
def Obligations.DifferentAddressesReachDifferentCells : Prop :=
  ∀ (a a' : Word) (vb : BitVec 1) (wb : BitVec 3) (st : Store) (i : Nat),
    target a vb wb = .cell st i → target a' vb wb = .cell st i → a = a'

/-- R54: banks are independent storage: their cells are disjoint, and a write through one bank is not seen through the
same address with another bank selected, nor through the fixed part of work RAM. -/
def Obligations.BanksAreIndependentStorage : Prop :=
  (∀ (a a' : Word) (vb vb' : BitVec 1), region a = .vram → region a' = .vram → vb ≠ vb' → vramOff a vb ≠ vramOff a' vb') ∧
  (∀ (a a' : Word) (wb wb' : BitVec 3), region a = .wramx → region a' = .wramx → wb ≠ wb' →
    wramBankedOff a wb ≠ wramBankedOff a' wb') ∧
  (∀ (a a' : Word) (wb : BitVec 3), region a = .wram0 → region a' = .wramx → wram0Off a ≠ wramBankedOff a' wb) ∧
  (∀ (a : Word) (v : Byte) (s t : State) (vb : BitVec 1), region a = .vram → vb ≠ s.vramBank →
    exec (.write8 a v) s = .next t →
      ({ t with vramBank := vb } : State).readByte a = ({ s with vramBank := vb } : State).readByte a) ∧
  (∀ (a : Word) (v : Byte) (s t : State) (wb : BitVec 3), region a = .wramx → wb ≠ s.wramBank →
    exec (.write8 a v) s = .next t →
      ({ t with wramBank := wb } : State).readByte a = ({ s with wramBank := wb } : State).readByte a) ∧
  (∀ (a a' : Word) (v : Byte) (s t : State), region a = .vram ∨ region a = .wramx → region a' = .wram0 →
    exec (.write8 a v) s = .next t → t.readByte a' = s.readByte a')

/-- What a READ8 cannot learn (from R47 and R49): the cells of a bank that is not selected, whatever they hold, change no
answer at any address. -/
def Obligations.ReadsDoNotSeeUnselectedBanks : Prop :=
  ∀ (a : Word) (i : Nat) (v : Byte) (s : State),
    (i / 0x2000 ≠ s.vramBank.toNat → (s.writeCell .vram i v).readByte a = s.readByte a) ∧
    (0x1000 ≤ i → i / 0x1000 ≠ s.wramBank.toNat + 1 → (s.writeCell .wram i v).readByte a = s.readByte a)

/-- R160: the byte READ8 returns, region by region, in every state. The encoding clause is decision D9. -/
def Obligations.Read8ReturnsTheRegionsByte : Prop :=
  ∀ (a : Word) (s : State),
    (encode (.read8 a)).toNat = 0x80000000 + a.toNat * 2 ^ 8 ∧
    ∃ v : Byte, exec (.read8 a) s = .next { s with rsp := v.setWidth 16, ill := false } ∧
      (a.toNat ≤ 0x7FFF → v = Config.cartRead s.cart a) ∧
      (0x8000 ≤ a.toNat ∧ a.toNat ≤ 0x9FFF → v = s.readCell .vram (a.toNat - 0x8000 + s.vramBank.toNat * 0x2000)) ∧
      (0xA000 ≤ a.toNat ∧ a.toNat ≤ 0xBFFF → v = Config.cartRead s.cart a) ∧
      (0xC000 ≤ a.toNat ∧ a.toNat ≤ 0xCFFF → v = s.readCell .wram (a.toNat - 0xC000)) ∧
      (0xD000 ≤ a.toNat ∧ a.toNat ≤ 0xDFFF → v = s.readCell .wram (a.toNat - 0xC000 + s.wramBank.toNat * 0x1000)) ∧
      (0xE000 ≤ a.toNat ∧ a.toNat ≤ 0xFDFF → v = 0xFF) ∧
      (0xFE00 ≤ a.toNat ∧ a.toNat ≤ 0xFE9F → v = s.readCell .oam (a.toNat - 0xFE00)) ∧
      (0xFEA0 ≤ a.toNat ∧ a.toNat ≤ 0xFEFF → v = 0xFF) ∧
      (0xFF00 ≤ a.toNat → v = s.readCell .high (a.toNat - 0xFF00))

/-- R180: the state WRITE8 leaves, region by region, in every state. The encoding clause is decision D9; the two
bank-select updates are decisions D3 and D4. -/
def Obligations.Write8ActsOnTheRegion : Prop :=
  ∀ (a : Word) (v : Byte) (s : State),
    (encode (.write8 a v)).toNat = 0x88000000 + a.toNat * 2 ^ 8 + v.toNat ∧
    (a.toNat ≤ 0x7FFF → exec (.write8 a v) s = .next ((s.callCart (.writeROM a v)).respond 0)) ∧
    (0x8000 ≤ a.toNat ∧ a.toNat ≤ 0x9FFF → exec (.write8 a v) s =
      .next ((s.writeCell .vram (a.toNat - 0x8000 + s.vramBank.toNat * 0x2000) v).respond 0)) ∧
    (0xA000 ≤ a.toNat ∧ a.toNat ≤ 0xBFFF → exec (.write8 a v) s = .next ((s.callCart (.writeRAM a v)).respond 0)) ∧
    (0xC000 ≤ a.toNat ∧ a.toNat ≤ 0xCFFF → exec (.write8 a v) s =
      .next ((s.writeCell .wram (a.toNat - 0xC000) v).respond 0)) ∧
    (0xD000 ≤ a.toNat ∧ a.toNat ≤ 0xDFFF → exec (.write8 a v) s =
      .next ((s.writeCell .wram (a.toNat - 0xC000 + s.wramBank.toNat * 0x1000) v).respond 0)) ∧
    (0xE000 ≤ a.toNat ∧ a.toNat ≤ 0xFDFF → exec (.write8 a v) s = .next (s.respond 0)) ∧
    (0xFE00 ≤ a.toNat ∧ a.toNat ≤ 0xFE9F → exec (.write8 a v) s =
      .next ((s.writeCell .oam (a.toNat - 0xFE00) v).respond 0)) ∧
    (0xFEA0 ≤ a.toNat ∧ a.toNat ≤ 0xFEFF → exec (.write8 a v) s = .next (s.respond 0)) ∧
    (0xFF00 ≤ a.toNat → ∃ vb wb, exec (.write8 a v) s =
        .next ({ s.writeCell .high (a.toNat - 0xFF00) v with vramBank := vb, wramBank := wb }.respond 0) ∧
      vb = (if a = Config.vbkAddr then v.setWidth 1 else s.vramBank) ∧
      wb = (if a = Config.svbkAddr then (if v.toNat % 8 = 0 then 1 else v.setWidth 3) else s.wramBank))

/-- R67 and R68: the two regions without a store read 0xFF in every state and drop every write; a write to work RAM is not
seen in the echo region. -/
def Obligations.RegionsWithoutAStore : Prop :=
  ∀ (a : Word) (v : Byte) (s : State),
    (0xE000 ≤ a.toNat ∧ a.toNat ≤ 0xFDFF) ∨ (0xFEA0 ≤ a.toNat ∧ a.toNat ≤ 0xFEFF) →
      exec (.read8 a) s = .next { s with rsp := 0x00FF, ill := false } ∧
      exec (.write8 a v) s = .next { s with rsp := 0, ill := false } ∧
      ∀ (a' : Word) (u : Byte) (t : State), exec (.write8 a' u) s = .next t → t.readByte a = 0xFF

/-- R190: a READ8 right after a WRITE8 to an address of a block-owned store returns the byte, the bank-select registers
included; the two regions without a store read 0xFF whatever was written. -/
def Obligations.ReadReturnsTheByteJustWritten : Prop :=
  (∀ (a : Word) (v : Byte) (s t : State), s.Inv → blockOwned a → exec (.write8 a v) s = .next t →
    exec (.read8 a) t = .next { t with rsp := v.setWidth 16, ill := false }) ∧
  (∀ (a : Word) (v : Byte) (s t : State), (0xE000 ≤ a.toNat ∧ a.toNat ≤ 0xFDFF) ∨ (0xFEA0 ≤ a.toNat ∧ a.toNat ≤ 0xFEFF) →
    exec (.write8 a v) s = .next t → exec (.read8 a) t = .next { t with rsp := 0x00FF, ill := false })

/-- R57, R58 and R226 (decisions D3 and D4; R226 derived): a bank-select write sets its index, is read back as the stored
byte, and is in force for the very next access of its region, a READ8 or a WRITE8. -/
def Obligations.BankSwitchIsInForceAtOnce : Prop :=
  (∀ (v : Byte) (s t : State), exec (.write8 Config.vbkAddr v) s = .next t →
    t.vramBank.toNat = v.toNat % 2 ∧ t.wramBank = s.wramBank ∧
    (s.storesWf → t.readByte Config.vbkAddr = v) ∧
    ∀ a : Word, 0x8000 ≤ a.toNat → a.toNat ≤ 0x9FFF →
      exec (.read8 a) t = .next { t with
        rsp := (s.readCell .vram (a.toNat - 0x8000 + v.toNat % 2 * 0x2000)).setWidth 16, ill := false } ∧
      ∀ u : Byte, exec (.write8 a u) t =
        .next ((t.writeCell .vram (a.toNat - 0x8000 + v.toNat % 2 * 0x2000) u).respond 0)) ∧
  (∀ (v : Byte) (s t : State), exec (.write8 Config.svbkAddr v) s = .next t →
    t.wramBank.toNat = (if v.toNat % 8 = 0 then 1 else v.toNat % 8) ∧ t.vramBank = s.vramBank ∧
    (s.storesWf → t.readByte Config.svbkAddr = v) ∧
    ∀ a : Word, 0xD000 ≤ a.toNat → a.toNat ≤ 0xDFFF →
      exec (.read8 a) t = .next { t with
        rsp := (s.readCell .wram (a.toNat - 0xC000 + (if v.toNat % 8 = 0 then 1 else v.toNat % 8) * 0x1000)).setWidth 16,
        ill := false } ∧
      ∀ u : Byte, exec (.write8 a u) t =
        .next ((t.writeCell .wram (a.toNat - 0xC000 + (if v.toNat % 8 = 0 then 1 else v.toNat % 8) * 0x1000) u).respond 0))

/-- R71 for a whole list of inputs: from any state that meets the invariant the block answers every input, and then every
cell of every store holds the byte of the most recent write that reached it, or its power-up byte after a later reset
event, or what it held at the start. Beside R71 it rests on the bank-select addresses and mapping in `cellAfter`
(decisions D3 and D4, log entries 7 and 8), on the power-up values (R35 to R37; decisions D5 and D8, log entries 6 and
9), on a reset event being allowed in the middle of a run (decision D12, log entry 15), and on the model's list of inputs
(log entry 1), in which an ILLEGAL word counts as a step (log entry 3). -/
def Obligations.CellsHoldTheMostRecentWrite : Prop :=
  ∀ s : State, s.Inv →
    ∃ t : State, Host.Core.run Sys2Proof.core s.inputs.length s = .next t ∧ t.inputs = [] ∧ t.Inv ∧
      ∀ (st : Store) (i : Nat),
        t.readCell st i = cellAfter st i s.vramBank s.wramBank (s.readCell st i) s.inputs
end

