-- ==== Sys2Proof/Laws/AddressMap.lean ====
section
/-! SUPPORT. The address decoder: bounds of the regions, and what an address that reaches a cell looks like. -/

namespace Sys2Proof.Machine

/-- One inversion for the decoder: every address lies within the bounds of its region, and every region has its own
bounds (20_memory.md R41, R42). -/
theorem region_bounds (a : Word) :
    (region a = .rom ∧ a.toNat ≤ 0x7FFF) ∨ (region a = .vram ∧ 0x8000 ≤ a.toNat ∧ a.toNat ≤ 0x9FFF) ∨
    (region a = .xram ∧ 0xA000 ≤ a.toNat ∧ a.toNat ≤ 0xBFFF) ∨ (region a = .wram0 ∧ 0xC000 ≤ a.toNat ∧ a.toNat ≤ 0xCFFF) ∨
    (region a = .wramx ∧ 0xD000 ≤ a.toNat ∧ a.toNat ≤ 0xDFFF) ∨ (region a = .echo ∧ 0xE000 ≤ a.toNat ∧ a.toNat ≤ 0xFDFF) ∨
    (region a = .oam ∧ 0xFE00 ≤ a.toNat ∧ a.toNat ≤ 0xFE9F) ∨
    (region a = .unusable ∧ 0xFEA0 ≤ a.toNat ∧ a.toNat ≤ 0xFEFF) ∨ (region a = .high ∧ 0xFF00 ≤ a.toNat) := by
  by_cases h1 : a.toNat ≤ 0x7FFF
  · exact .inl ⟨by simp [region, h1], h1⟩
  by_cases h2 : a.toNat ≤ 0x9FFF
  · exact .inr (.inl ⟨by simp [region, h1, h2], by omega, h2⟩)
  by_cases h3 : a.toNat ≤ 0xBFFF
  · exact .inr (.inr (.inl ⟨by simp [region, h1, h2, h3], by omega, h3⟩))
  by_cases h4 : a.toNat ≤ 0xCFFF
  · exact .inr (.inr (.inr (.inl ⟨by simp [region, h1, h2, h3, h4], by omega, h4⟩)))
  by_cases h5 : a.toNat ≤ 0xDFFF
  · exact .inr (.inr (.inr (.inr (.inl ⟨by simp [region, h1, h2, h3, h4, h5], by omega, h5⟩))))
  by_cases h6 : a.toNat ≤ 0xFDFF
  · exact .inr (.inr (.inr (.inr (.inr (.inl ⟨by simp [region, h1, h2, h3, h4, h5, h6], by omega, h6⟩)))))
  by_cases h7 : a.toNat ≤ 0xFE9F
  · exact .inr (.inr (.inr (.inr (.inr (.inr (.inl ⟨by simp [region, h1, h2, h3, h4, h5, h6, h7], by omega, h7⟩))))))
  by_cases h8 : a.toNat ≤ 0xFEFF
  · exact .inr (.inr (.inr (.inr (.inr (.inr (.inr (.inl
      ⟨by simp [region, h1, h2, h3, h4, h5, h6, h7, h8], by omega, h8⟩)))))))
  · exact .inr (.inr (.inr (.inr (.inr (.inr (.inr (.inr
      ⟨by simp [region, h1, h2, h3, h4, h5, h6, h7, h8], by omega⟩)))))))

/-- The decoder's answers with the bounds of each (20_memory.md R41, R47 to R51). -/
theorem target_cases (a : Word) (vb : BitVec 1) (wb : BitVec 3) :
    (target a vb wb = .cartROM ∧ a.toNat ≤ 0x7FFF) ∨
    (target a vb wb = .cell .vram (a.toNat - 0x8000 + vb.toNat * 0x2000) ∧ 0x8000 ≤ a.toNat ∧ a.toNat ≤ 0x9FFF) ∨
    (target a vb wb = .cartRAM ∧ 0xA000 ≤ a.toNat ∧ a.toNat ≤ 0xBFFF) ∨
    (target a vb wb = .cell .wram (a.toNat - 0xC000) ∧ 0xC000 ≤ a.toNat ∧ a.toNat ≤ 0xCFFF) ∨
    (target a vb wb = .cell .wram (a.toNat - 0xC000 + wb.toNat * 0x1000) ∧ 0xD000 ≤ a.toNat ∧ a.toNat ≤ 0xDFFF) ∨
    (target a vb wb = .noStore ∧ 0xE000 ≤ a.toNat ∧ a.toNat ≤ 0xFDFF) ∨
    (target a vb wb = .cell .oam (a.toNat - 0xFE00) ∧ 0xFE00 ≤ a.toNat ∧ a.toNat ≤ 0xFE9F) ∨
    (target a vb wb = .noStore ∧ 0xFEA0 ≤ a.toNat ∧ a.toNat ≤ 0xFEFF) ∨
    (target a vb wb = .cell .high (a.toNat - 0xFF00) ∧ 0xFF00 ≤ a.toNat) := by
  rcases region_bounds a with ⟨h, hb⟩ | ⟨h, hb⟩ | ⟨h, hb⟩ | ⟨h, hb⟩ | ⟨h, hb⟩ | ⟨h, hb⟩ | ⟨h, hb⟩ | ⟨h, hb⟩ | ⟨h, hb⟩ <;>
    simp only [target, h, vramOff, wram0Off, wramBankedOff, oamOff, highOff, regionFirst, Config.vramBankSize, Config.wramBankSize] <;>
    simp [hb]

/-- An address that reaches a cell, with the cell's index without a subtraction (20_memory.md R47 to R51). -/
theorem target_eq_cell {a : Word} {vb : BitVec 1} {wb : BitVec 3} {st : Store} {i : Nat} (h : target a vb wb = .cell st i) :
    (st = .vram ∧ 0x8000 ≤ a.toNat ∧ a.toNat ≤ 0x9FFF ∧ i + 0x8000 = a.toNat + vb.toNat * 0x2000) ∨
    (st = .wram ∧ 0xC000 ≤ a.toNat ∧ a.toNat ≤ 0xCFFF ∧ i + 0xC000 = a.toNat) ∨
    (st = .wram ∧ 0xD000 ≤ a.toNat ∧ a.toNat ≤ 0xDFFF ∧ i + 0xC000 = a.toNat + wb.toNat * 0x1000) ∨
    (st = .oam ∧ 0xFE00 ≤ a.toNat ∧ a.toNat ≤ 0xFE9F ∧ i + 0xFE00 = a.toNat) ∨
    (st = .high ∧ 0xFF00 ≤ a.toNat ∧ i + 0xFF00 = a.toNat) := by
  rcases target_cases a vb wb with ⟨e, b⟩ | ⟨e, b⟩ | ⟨e, b⟩ | ⟨e, b⟩ | ⟨e, b⟩ | ⟨e, b⟩ | ⟨e, b⟩ | ⟨e, b⟩ | ⟨e, b⟩ <;>
    rw [e] at h <;> simp only [Target.cell.injEq, reduceCtorEq] at h
  · exact .inl ⟨h.1.symm, b.1, b.2, by omega⟩
  · exact .inr (.inl ⟨h.1.symm, b.1, b.2, by omega⟩)
  · exact .inr (.inr (.inl ⟨h.1.symm, b.1, b.2, by omega⟩))
  · exact .inr (.inr (.inr (.inl ⟨h.1.symm, b.1, b.2, by omega⟩)))
  · exact .inr (.inr (.inr (.inr ⟨h.1.symm, b, by omega⟩)))

/-- Both bank-select registers lie in high memory (00_scope.md R5). -/
theorem target_vbkAddr (vb : BitVec 1) (wb : BitVec 3) : target Config.vbkAddr vb wb = .cell .high 0x4F := by
  simp [target, region, highOff, regionFirst, Config.vbkAddr]

theorem target_svbkAddr (vb : BitVec 1) (wb : BitVec 3) : target Config.svbkAddr vb wb = .cell .high 0x70 := by
  simp [target, region, highOff, regionFirst, Config.svbkAddr]

/-- A bank-select write never leaves the work-RAM bank at 0 (20_memory.md R58). -/
theorem wramBankOfByte_ne_zero (v : Byte) : wramBankOfByte v ≠ 0 := by
  unfold wramBankOfByte
  split
  · decide
  · assumption

end Sys2Proof.Machine
end

