-- ==== Sys2Proof/Laws/Cartridge.lean ====
section
/-! SUPPORT. Why a history of write calls stands for every Cartridge (20_memory.md R62): any Cartridge given as a state
type with its two write functions is reached from the history by one fold, and that fold is the only reading of it. -/

namespace Sys2Proof.Laws

variable {C : Type} (writeROM writeRAM : C → Word → Byte → C)

/-- The effect of one call on a Cartridge of R62. -/
def applyCall (c : C) : CartCall → C
  | .writeROM a v => writeROM c a v
  | .writeRAM a v => writeRAM c a v

/-- The state such a Cartridge has after a history, starting at `c0`. -/
def Cartridge.interpret (c0 : C) (h : Cartridge) : C := h.foldl (applyCall writeROM writeRAM) c0

theorem Cartridge.interpret_call (c0 : C) (h : Cartridge) (call : CartCall) :
    interpret writeROM writeRAM c0 (h ++ [call]) =
      applyCall writeROM writeRAM (interpret writeROM writeRAM c0 h) call := by
  simp [interpret]

/-- Any function that starts at `c0` and follows the two write functions call by call is `interpret`. -/
theorem Cartridge.interpret_unique (c0 : C) (f : Cartridge → C) (h0 : f [] = c0)
    (hstep : ∀ h call, f (h ++ [call]) = applyCall writeROM writeRAM (f h) call) (h : Cartridge) :
    f h = interpret writeROM writeRAM c0 h := by
  induction h using List.reverseRecOn with
  | nil => simpa [interpret] using h0
  | append_singleton h call ih => rw [hstep, ih, interpret_call]

end Sys2Proof.Laws
end

