-- ==== Sys2Proof/Laws/Decode.lean ====
section
/-! SUPPORT. The four fields of a command word, and what each selector of the decoder accepts. -/

namespace Sys2Proof

variable {op : BitVec 5} {r : BitVec 3} {w : Word} {b : Byte} {c : Command}

@[simp] theorem opField_packCommand : opField (packCommand op r w b) = op := by
  ext k hk
  simp only [opField, packCommand, BitVec.getElem_extractLsb', BitVec.getLsbD_append]
  rw [if_neg (by omega), if_neg (by omega), if_neg (by omega)]
  simp only [show 27 + k - 8 - 16 - 3 = k by omega, BitVec.getLsbD_eq_getElem hk]

@[simp] theorem rField_packCommand : rField (packCommand op r w b) = r := by
  ext k hk
  simp only [rField, packCommand, BitVec.getElem_extractLsb', BitVec.getLsbD_append]
  rw [if_neg (by omega), if_neg (by omega), if_pos (by omega)]
  simp only [show 24 + k - 8 - 16 = k by omega, BitVec.getLsbD_eq_getElem hk]

@[simp] theorem wField_packCommand : wField (packCommand op r w b) = w := by
  ext k hk
  simp only [wField, packCommand, BitVec.getElem_extractLsb', BitVec.getLsbD_append]
  rw [if_neg (by omega), if_pos (by omega)]
  simp only [show 8 + k - 8 = k by omega, BitVec.getLsbD_eq_getElem hk]

@[simp] theorem bField_packCommand : bField (packCommand op r w b) = b := by
  ext k hk
  simp only [bField, packCommand, BitVec.getElem_extractLsb', BitVec.getLsbD_append]
  rw [if_pos (by omega)]
  simp only [show 0 + k = k by omega, BitVec.getLsbD_eq_getElem hk]

/-- A word is its four fields. -/
theorem packCommand_fields (c : Command) : packCommand (opField c) (rField c) (wField c) (bField c) = c := by
  apply BitVec.eq_of_getLsbD_eq
  intro k hk
  simp only [opField, rField, wField, bField, packCommand, BitVec.getLsbD_append, BitVec.getLsbD_extractLsb']
  split
  · simp [*]
  · split
    · simp [show 8 + (k - 8) = k by omega, show k - 8 < 16 by omega]
    · split
      · simp [show 24 + (k - 8 - 16) = k by omega, show k - 8 - 16 < 3 by omega]
      · simp [show 27 + (k - 8 - 16 - 3) = k by omega, show k - 8 - 16 - 3 < 5 by omega]

/-- `(op << 27) | (r << 24) | (w << 8) | b` as a number (30_encoding.md R92). -/
theorem toNat_packCommand : (packCommand op r w b).toNat = op.toNat * 2 ^ 27 + r.toNat * 2 ^ 24 + w.toNat * 2 ^ 8 + b.toNat := by
  have hr := r.isLt
  have hw := w.isLt
  have hb := b.isLt
  simp only [packCommand, BitVec.toNat_append, Nat.shiftLeft_eq]
  rw [Nat.mul_comm op.toNat, ← Nat.two_pow_add_eq_or_of_lt hr, Nat.mul_comm _ (2 ^ 16),
    ← Nat.two_pow_add_eq_or_of_lt hw, Nat.mul_comm _ (2 ^ 8), ← Nat.two_pow_add_eq_or_of_lt hb]
  omega

@[simp] theorem Reg.ofCode_code (r : Reg) : Reg.ofCode r.code = some r := by cases r <;> rfl

theorem Reg.code_of_ofCode {x : BitVec 3} {r : Reg} (h : Reg.ofCode x = some r) : r.code = x := by
  revert h; revert r; revert x; decide

theorem Reg.ofCode_none {x : BitVec 3} (h : 6 ≤ x.toNat) : Reg.ofCode x = none := by
  revert h; revert x; decide

theorem Reg.isPair_of_ofCode {x : BitVec 3} {r : Reg} (h : Reg.ofCode x = some r) : r.isPair = decide (x.toNat ≤ 4) := by
  revert h; revert r; revert x; decide

theorem ifClear_eq_ok {p : Bool} {i j : Instr} (h : ifClear p i = .ok j) : p = true ∧ i = j := by
  unfold ifClear at h
  split at h
  · exact ⟨‹_›, by injection h⟩
  · cases h

theorem selectReg_eq_ok {k : Reg → Except Illegal Instr} {j : Instr} (h : selectReg c k = .ok j) :
    ∃ q : Reg, q.code = rField c ∧ k q = .ok j := by
  unfold selectReg at h
  split at h
  · exact ⟨_, Reg.code_of_ofCode ‹_›, h⟩
  · cases h

theorem selectPair_eq_ok {k : Reg → Except Illegal Instr} {j : Instr} (h : selectPair c k = .ok j) :
    ∃ q : Reg, q.code = rField c ∧ q.isPair = true ∧ k q = .ok j := by
  obtain ⟨q, hq, hk⟩ := selectReg_eq_ok h
  split at hk
  · exact ⟨q, hq, ‹_›, hk⟩
  · cases hk

theorem selectNone_eq_ok {k : Except Illegal Instr} {j : Instr} (h : selectNone c k = .ok j) :
    rField c = 0 ∧ k = .ok j := by
  unfold selectNone at h
  split at h
  · exact ⟨‹_›, h⟩
  · cases h

@[simp] theorem selectReg_packCommand {k : Reg → Except Illegal Instr} (q : Reg) :
    selectReg (packCommand op q.code w b) k = k q := by simp [selectReg]

@[simp] theorem selectPair_packCommand {k : Reg → Except Illegal Instr} {q : Reg} (hp : q.isPair = true) :
    selectPair (packCommand op q.code w b) k = k q := by simp [selectPair, hp]

@[simp] theorem selectNone_packCommand {k : Except Illegal Instr} : selectNone (packCommand op 0#3 w b) k = k := by
  simp [selectNone]

/-- The byte operand of a flag setter carries exactly the flag. -/
@[simp] theorem flagOperand_getElem (f : Bool) : (flagOperand f)[0] = f := by cases f <;> decide

@[simp] theorem flagOperand_upper (f : Bool) : (flagOperand f).extractLsb' 1 7 = 0 := by cases f <;> decide

theorem flagOperand_of_byte {b : Byte} (h : b.extractLsb' 1 7 = 0) : flagOperand b[0] = b := by
  revert h; revert b; decide

end Sys2Proof
end

