-- ==== Sys2Proof/Laws/State.lean ====
section
/-! SUPPORT. One lemma per field per update of `State`: no later proof unfolds a record update. -/

namespace Sys2Proof.Machine

/-! ## The accessors at a named register or store -/

@[simp] theorem State.reg_af (s : State) : s.reg .af = s.af := rfl
@[simp] theorem State.reg_bc (s : State) : s.reg .bc = s.bc := rfl
@[simp] theorem State.reg_de (s : State) : s.reg .de = s.de := rfl
@[simp] theorem State.reg_hl (s : State) : s.reg .hl = s.hl := rfl
@[simp] theorem State.reg_sp (s : State) : s.reg .sp = s.sp := rfl
@[simp] theorem State.reg_pc (s : State) : s.reg .pc = s.pc := rfl
@[simp] theorem State.store_vram (s : State) : s.store .vram = s.vram := rfl
@[simp] theorem State.store_wram (s : State) : s.store .wram = s.wram := rfl
@[simp] theorem State.store_oam (s : State) : s.store .oam = s.oam := rfl
@[simp] theorem State.store_high (s : State) : s.store .high = s.high := rfl

/-! ## `setReg` -/

@[simp] theorem State.af_setReg (s : State) (r : Reg) (v : Word) : (s.setReg r v).af = if r = .af then v else s.af := by cases r <;> rfl
@[simp] theorem State.bc_setReg (s : State) (r : Reg) (v : Word) : (s.setReg r v).bc = if r = .bc then v else s.bc := by cases r <;> rfl
@[simp] theorem State.de_setReg (s : State) (r : Reg) (v : Word) : (s.setReg r v).de = if r = .de then v else s.de := by cases r <;> rfl
@[simp] theorem State.hl_setReg (s : State) (r : Reg) (v : Word) : (s.setReg r v).hl = if r = .hl then v else s.hl := by cases r <;> rfl
@[simp] theorem State.sp_setReg (s : State) (r : Reg) (v : Word) : (s.setReg r v).sp = if r = .sp then v else s.sp := by cases r <;> rfl
@[simp] theorem State.pc_setReg (s : State) (r : Reg) (v : Word) : (s.setReg r v).pc = if r = .pc then v else s.pc := by cases r <;> rfl
@[simp] theorem State.vramBank_setReg (s : State) (r : Reg) (v : Word) : (s.setReg r v).vramBank = s.vramBank := by cases r <;> rfl
@[simp] theorem State.wramBank_setReg (s : State) (r : Reg) (v : Word) : (s.setReg r v).wramBank = s.wramBank := by cases r <;> rfl
@[simp] theorem State.vram_setReg (s : State) (r : Reg) (v : Word) : (s.setReg r v).vram = s.vram := by cases r <;> rfl
@[simp] theorem State.wram_setReg (s : State) (r : Reg) (v : Word) : (s.setReg r v).wram = s.wram := by cases r <;> rfl
@[simp] theorem State.oam_setReg (s : State) (r : Reg) (v : Word) : (s.setReg r v).oam = s.oam := by cases r <;> rfl
@[simp] theorem State.high_setReg (s : State) (r : Reg) (v : Word) : (s.setReg r v).high = s.high := by cases r <;> rfl
@[simp] theorem State.cart_setReg (s : State) (r : Reg) (v : Word) : (s.setReg r v).cart = s.cart := by cases r <;> rfl
@[simp] theorem State.rsp_setReg (s : State) (r : Reg) (v : Word) : (s.setReg r v).rsp = s.rsp := by cases r <;> rfl
@[simp] theorem State.ill_setReg (s : State) (r : Reg) (v : Word) : (s.setReg r v).ill = s.ill := by cases r <;> rfl
@[simp] theorem State.inputs_setReg (s : State) (r : Reg) (v : Word) : (s.setReg r v).inputs = s.inputs := by cases r <;> rfl

@[simp] theorem State.reg_setReg (s : State) (r q : Reg) (v : Word) :
    (s.setReg r v).reg q = if q = r then v else s.reg q := by cases r <;> cases q <;> rfl
@[simp] theorem State.store_setReg (s : State) (r : Reg) (v : Word) (st : Store) :
    (s.setReg r v).store st = s.store st := by cases r <;> cases st <;> rfl

/-! ## `setStore` -/

@[simp] theorem State.af_setStore (s : State) (st : Store) (m : Memory) : (s.setStore st m).af = s.af := by cases st <;> rfl
@[simp] theorem State.bc_setStore (s : State) (st : Store) (m : Memory) : (s.setStore st m).bc = s.bc := by cases st <;> rfl
@[simp] theorem State.de_setStore (s : State) (st : Store) (m : Memory) : (s.setStore st m).de = s.de := by cases st <;> rfl
@[simp] theorem State.hl_setStore (s : State) (st : Store) (m : Memory) : (s.setStore st m).hl = s.hl := by cases st <;> rfl
@[simp] theorem State.sp_setStore (s : State) (st : Store) (m : Memory) : (s.setStore st m).sp = s.sp := by cases st <;> rfl
@[simp] theorem State.pc_setStore (s : State) (st : Store) (m : Memory) : (s.setStore st m).pc = s.pc := by cases st <;> rfl
@[simp] theorem State.vramBank_setStore (s : State) (st : Store) (m : Memory) : (s.setStore st m).vramBank = s.vramBank := by cases st <;> rfl
@[simp] theorem State.wramBank_setStore (s : State) (st : Store) (m : Memory) : (s.setStore st m).wramBank = s.wramBank := by cases st <;> rfl
@[simp] theorem State.vram_setStore (s : State) (st : Store) (m : Memory) : (s.setStore st m).vram = if st = .vram then m else s.vram := by cases st <;> rfl
@[simp] theorem State.wram_setStore (s : State) (st : Store) (m : Memory) : (s.setStore st m).wram = if st = .wram then m else s.wram := by cases st <;> rfl
@[simp] theorem State.oam_setStore (s : State) (st : Store) (m : Memory) : (s.setStore st m).oam = if st = .oam then m else s.oam := by cases st <;> rfl
@[simp] theorem State.high_setStore (s : State) (st : Store) (m : Memory) : (s.setStore st m).high = if st = .high then m else s.high := by cases st <;> rfl
@[simp] theorem State.cart_setStore (s : State) (st : Store) (m : Memory) : (s.setStore st m).cart = s.cart := by cases st <;> rfl
@[simp] theorem State.rsp_setStore (s : State) (st : Store) (m : Memory) : (s.setStore st m).rsp = s.rsp := by cases st <;> rfl
@[simp] theorem State.ill_setStore (s : State) (st : Store) (m : Memory) : (s.setStore st m).ill = s.ill := by cases st <;> rfl
@[simp] theorem State.inputs_setStore (s : State) (st : Store) (m : Memory) : (s.setStore st m).inputs = s.inputs := by cases st <;> rfl

@[simp] theorem State.reg_setStore (s : State) (st : Store) (m : Memory) (r : Reg) :
    (s.setStore st m).reg r = s.reg r := by cases st <;> cases r <;> rfl
@[simp] theorem State.store_setStore (s : State) (st q : Store) (m : Memory) :
    (s.setStore st m).store q = if q = st then m else s.store q := by cases st <;> cases q <;> rfl

/-! ## `callCart` -/

@[simp] theorem State.af_callCart (s : State) (call : CartCall) : (s.callCart call).af = s.af := rfl
@[simp] theorem State.bc_callCart (s : State) (call : CartCall) : (s.callCart call).bc = s.bc := rfl
@[simp] theorem State.de_callCart (s : State) (call : CartCall) : (s.callCart call).de = s.de := rfl
@[simp] theorem State.hl_callCart (s : State) (call : CartCall) : (s.callCart call).hl = s.hl := rfl
@[simp] theorem State.sp_callCart (s : State) (call : CartCall) : (s.callCart call).sp = s.sp := rfl
@[simp] theorem State.pc_callCart (s : State) (call : CartCall) : (s.callCart call).pc = s.pc := rfl
@[simp] theorem State.vramBank_callCart (s : State) (call : CartCall) : (s.callCart call).vramBank = s.vramBank := rfl
@[simp] theorem State.wramBank_callCart (s : State) (call : CartCall) : (s.callCart call).wramBank = s.wramBank := rfl
@[simp] theorem State.vram_callCart (s : State) (call : CartCall) : (s.callCart call).vram = s.vram := rfl
@[simp] theorem State.wram_callCart (s : State) (call : CartCall) : (s.callCart call).wram = s.wram := rfl
@[simp] theorem State.oam_callCart (s : State) (call : CartCall) : (s.callCart call).oam = s.oam := rfl
@[simp] theorem State.high_callCart (s : State) (call : CartCall) : (s.callCart call).high = s.high := rfl
@[simp] theorem State.cart_callCart (s : State) (call : CartCall) : (s.callCart call).cart = s.cart ++ [call] := rfl
@[simp] theorem State.rsp_callCart (s : State) (call : CartCall) : (s.callCart call).rsp = s.rsp := rfl
@[simp] theorem State.ill_callCart (s : State) (call : CartCall) : (s.callCart call).ill = s.ill := rfl
@[simp] theorem State.inputs_callCart (s : State) (call : CartCall) : (s.callCart call).inputs = s.inputs := rfl

/-! ## `selectBanks` -/

@[simp] theorem State.af_selectBanks (s : State) (a : Word) (v : Byte) : (s.selectBanks a v).af = s.af := rfl
@[simp] theorem State.bc_selectBanks (s : State) (a : Word) (v : Byte) : (s.selectBanks a v).bc = s.bc := rfl
@[simp] theorem State.de_selectBanks (s : State) (a : Word) (v : Byte) : (s.selectBanks a v).de = s.de := rfl
@[simp] theorem State.hl_selectBanks (s : State) (a : Word) (v : Byte) : (s.selectBanks a v).hl = s.hl := rfl
@[simp] theorem State.sp_selectBanks (s : State) (a : Word) (v : Byte) : (s.selectBanks a v).sp = s.sp := rfl
@[simp] theorem State.pc_selectBanks (s : State) (a : Word) (v : Byte) : (s.selectBanks a v).pc = s.pc := rfl
@[simp] theorem State.vramBank_selectBanks (s : State) (a : Word) (v : Byte) : (s.selectBanks a v).vramBank = if a = Config.vbkAddr then vramBankOfByte v else s.vramBank := rfl
@[simp] theorem State.wramBank_selectBanks (s : State) (a : Word) (v : Byte) : (s.selectBanks a v).wramBank = if a = Config.svbkAddr then wramBankOfByte v else s.wramBank := rfl
@[simp] theorem State.vram_selectBanks (s : State) (a : Word) (v : Byte) : (s.selectBanks a v).vram = s.vram := rfl
@[simp] theorem State.wram_selectBanks (s : State) (a : Word) (v : Byte) : (s.selectBanks a v).wram = s.wram := rfl
@[simp] theorem State.oam_selectBanks (s : State) (a : Word) (v : Byte) : (s.selectBanks a v).oam = s.oam := rfl
@[simp] theorem State.high_selectBanks (s : State) (a : Word) (v : Byte) : (s.selectBanks a v).high = s.high := rfl
@[simp] theorem State.cart_selectBanks (s : State) (a : Word) (v : Byte) : (s.selectBanks a v).cart = s.cart := rfl
@[simp] theorem State.rsp_selectBanks (s : State) (a : Word) (v : Byte) : (s.selectBanks a v).rsp = s.rsp := rfl
@[simp] theorem State.ill_selectBanks (s : State) (a : Word) (v : Byte) : (s.selectBanks a v).ill = s.ill := rfl
@[simp] theorem State.inputs_selectBanks (s : State) (a : Word) (v : Byte) : (s.selectBanks a v).inputs = s.inputs := rfl

/-! ## `respond` -/

@[simp] theorem State.af_respond (s : State) (v : Word) : (s.respond v).af = s.af := rfl
@[simp] theorem State.bc_respond (s : State) (v : Word) : (s.respond v).bc = s.bc := rfl
@[simp] theorem State.de_respond (s : State) (v : Word) : (s.respond v).de = s.de := rfl
@[simp] theorem State.hl_respond (s : State) (v : Word) : (s.respond v).hl = s.hl := rfl
@[simp] theorem State.sp_respond (s : State) (v : Word) : (s.respond v).sp = s.sp := rfl
@[simp] theorem State.pc_respond (s : State) (v : Word) : (s.respond v).pc = s.pc := rfl
@[simp] theorem State.vramBank_respond (s : State) (v : Word) : (s.respond v).vramBank = s.vramBank := rfl
@[simp] theorem State.wramBank_respond (s : State) (v : Word) : (s.respond v).wramBank = s.wramBank := rfl
@[simp] theorem State.vram_respond (s : State) (v : Word) : (s.respond v).vram = s.vram := rfl
@[simp] theorem State.wram_respond (s : State) (v : Word) : (s.respond v).wram = s.wram := rfl
@[simp] theorem State.oam_respond (s : State) (v : Word) : (s.respond v).oam = s.oam := rfl
@[simp] theorem State.high_respond (s : State) (v : Word) : (s.respond v).high = s.high := rfl
@[simp] theorem State.cart_respond (s : State) (v : Word) : (s.respond v).cart = s.cart := rfl
@[simp] theorem State.rsp_respond (s : State) (v : Word) : (s.respond v).rsp = v := rfl
@[simp] theorem State.ill_respond (s : State) (v : Word) : (s.respond v).ill = false := rfl
@[simp] theorem State.inputs_respond (s : State) (v : Word) : (s.respond v).inputs = s.inputs := rfl

/-! ## `illegalResponse` -/

@[simp] theorem State.af_illegalResponse (s : State) : (s.illegalResponse).af = s.af := rfl
@[simp] theorem State.bc_illegalResponse (s : State) : (s.illegalResponse).bc = s.bc := rfl
@[simp] theorem State.de_illegalResponse (s : State) : (s.illegalResponse).de = s.de := rfl
@[simp] theorem State.hl_illegalResponse (s : State) : (s.illegalResponse).hl = s.hl := rfl
@[simp] theorem State.sp_illegalResponse (s : State) : (s.illegalResponse).sp = s.sp := rfl
@[simp] theorem State.pc_illegalResponse (s : State) : (s.illegalResponse).pc = s.pc := rfl
@[simp] theorem State.vramBank_illegalResponse (s : State) : (s.illegalResponse).vramBank = s.vramBank := rfl
@[simp] theorem State.wramBank_illegalResponse (s : State) : (s.illegalResponse).wramBank = s.wramBank := rfl
@[simp] theorem State.vram_illegalResponse (s : State) : (s.illegalResponse).vram = s.vram := rfl
@[simp] theorem State.wram_illegalResponse (s : State) : (s.illegalResponse).wram = s.wram := rfl
@[simp] theorem State.oam_illegalResponse (s : State) : (s.illegalResponse).oam = s.oam := rfl
@[simp] theorem State.high_illegalResponse (s : State) : (s.illegalResponse).high = s.high := rfl
@[simp] theorem State.cart_illegalResponse (s : State) : (s.illegalResponse).cart = s.cart := rfl
@[simp] theorem State.rsp_illegalResponse (s : State) : (s.illegalResponse).rsp = 0 := rfl
@[simp] theorem State.ill_illegalResponse (s : State) : (s.illegalResponse).ill = true := rfl
@[simp] theorem State.inputs_illegalResponse (s : State) : (s.illegalResponse).inputs = s.inputs := rfl

/-! ## `resetEvent` -/

@[simp] theorem State.af_resetEvent (s : State) : (s.resetEvent).af = State.reset.af := rfl
@[simp] theorem State.bc_resetEvent (s : State) : (s.resetEvent).bc = State.reset.bc := rfl
@[simp] theorem State.de_resetEvent (s : State) : (s.resetEvent).de = State.reset.de := rfl
@[simp] theorem State.hl_resetEvent (s : State) : (s.resetEvent).hl = State.reset.hl := rfl
@[simp] theorem State.sp_resetEvent (s : State) : (s.resetEvent).sp = State.reset.sp := rfl
@[simp] theorem State.pc_resetEvent (s : State) : (s.resetEvent).pc = State.reset.pc := rfl
@[simp] theorem State.vramBank_resetEvent (s : State) : (s.resetEvent).vramBank = State.reset.vramBank := rfl
@[simp] theorem State.wramBank_resetEvent (s : State) : (s.resetEvent).wramBank = State.reset.wramBank := rfl
@[simp] theorem State.vram_resetEvent (s : State) : (s.resetEvent).vram = State.reset.vram := rfl
@[simp] theorem State.wram_resetEvent (s : State) : (s.resetEvent).wram = State.reset.wram := rfl
@[simp] theorem State.oam_resetEvent (s : State) : (s.resetEvent).oam = State.reset.oam := rfl
@[simp] theorem State.high_resetEvent (s : State) : (s.resetEvent).high = State.reset.high := rfl
@[simp] theorem State.cart_resetEvent (s : State) : (s.resetEvent).cart = s.cart := rfl
@[simp] theorem State.rsp_resetEvent (s : State) : (s.resetEvent).rsp = State.reset.rsp := rfl
@[simp] theorem State.ill_resetEvent (s : State) : (s.resetEvent).ill = State.reset.ill := rfl
@[simp] theorem State.inputs_resetEvent (s : State) : (s.resetEvent).inputs = s.inputs := rfl

@[simp] theorem State.reg_callCart (s : State) (call : CartCall) (r : Reg) :
    (s.callCart call).reg r = s.reg r := by cases r <;> rfl
@[simp] theorem State.store_callCart (s : State) (call : CartCall) (st : Store) :
    (s.callCart call).store st = s.store st := by cases st <;> rfl
@[simp] theorem State.readCell_callCart (s : State) (call : CartCall) (st : Store) (i : Nat) :
    (s.callCart call).readCell st i = s.readCell st i := by simp [State.readCell]
@[simp] theorem State.reg_selectBanks (s : State) (a : Word) (v : Byte) (r : Reg) :
    (s.selectBanks a v).reg r = s.reg r := by cases r <;> rfl
@[simp] theorem State.store_selectBanks (s : State) (a : Word) (v : Byte) (st : Store) :
    (s.selectBanks a v).store st = s.store st := by cases st <;> rfl
@[simp] theorem State.readCell_selectBanks (s : State) (a : Word) (v : Byte) (st : Store) (i : Nat) :
    (s.selectBanks a v).readCell st i = s.readCell st i := by simp [State.readCell]
@[simp] theorem State.reg_respond (s : State) (v : Word) (r : Reg) :
    (s.respond v).reg r = s.reg r := by cases r <;> rfl
@[simp] theorem State.store_respond (s : State) (v : Word) (st : Store) :
    (s.respond v).store st = s.store st := by cases st <;> rfl
@[simp] theorem State.readCell_respond (s : State) (v : Word) (st : Store) (i : Nat) :
    (s.respond v).readCell st i = s.readCell st i := by simp [State.readCell]
@[simp] theorem State.reg_illegalResponse (s : State) (r : Reg) :
    (s.illegalResponse).reg r = s.reg r := by cases r <;> rfl
@[simp] theorem State.store_illegalResponse (s : State) (st : Store) :
    (s.illegalResponse).store st = s.store st := by cases st <;> rfl
@[simp] theorem State.readCell_illegalResponse (s : State) (st : Store) (i : Nat) :
    (s.illegalResponse).readCell st i = s.readCell st i := by simp [State.readCell]
@[simp] theorem State.readCell_setReg (s : State) (r : Reg) (v : Word) (st : Store) (i : Nat) :
    (s.setReg r v).readCell st i = s.readCell st i := by simp [State.readCell]
@[simp] theorem State.reg_writeCell (s : State) (st : Store) (i : Nat) (v : Byte) (r : Reg) :
    (s.writeCell st i v).reg r = s.reg r := by simp [State.writeCell]
@[simp] theorem State.vramBank_writeCell (s : State) (st : Store) (i : Nat) (v : Byte) :
    (s.writeCell st i v).vramBank = s.vramBank := by simp [State.writeCell]
@[simp] theorem State.wramBank_writeCell (s : State) (st : Store) (i : Nat) (v : Byte) :
    (s.writeCell st i v).wramBank = s.wramBank := by simp [State.writeCell]
@[simp] theorem State.cart_writeCell (s : State) (st : Store) (i : Nat) (v : Byte) :
    (s.writeCell st i v).cart = s.cart := by simp [State.writeCell]
@[simp] theorem State.rsp_writeCell (s : State) (st : Store) (i : Nat) (v : Byte) :
    (s.writeCell st i v).rsp = s.rsp := by simp [State.writeCell]
@[simp] theorem State.ill_writeCell (s : State) (st : Store) (i : Nat) (v : Byte) :
    (s.writeCell st i v).ill = s.ill := by simp [State.writeCell]
@[simp] theorem State.inputs_writeCell (s : State) (st : Store) (i : Nat) (v : Byte) :
    (s.writeCell st i v).inputs = s.inputs := by simp [State.writeCell]
@[simp] theorem State.vramBank_writeReg (s : State) (r : Reg) (v : Word) :
    (s.writeReg r v).vramBank = s.vramBank := by simp [State.writeReg]
@[simp] theorem State.wramBank_writeReg (s : State) (r : Reg) (v : Word) :
    (s.writeReg r v).wramBank = s.wramBank := by simp [State.writeReg]
@[simp] theorem State.cart_writeReg (s : State) (r : Reg) (v : Word) :
    (s.writeReg r v).cart = s.cart := by simp [State.writeReg]
@[simp] theorem State.rsp_writeReg (s : State) (r : Reg) (v : Word) :
    (s.writeReg r v).rsp = s.rsp := by simp [State.writeReg]
@[simp] theorem State.ill_writeReg (s : State) (r : Reg) (v : Word) :
    (s.writeReg r v).ill = s.ill := by simp [State.writeReg]
@[simp] theorem State.inputs_writeReg (s : State) (r : Reg) (v : Word) :
    (s.writeReg r v).inputs = s.inputs := by simp [State.writeReg]
@[simp] theorem State.reg_writeReg (s : State) (r q : Reg) (v : Word) :
    (s.writeReg r v).reg q = if q = r then v &&& regMask r else s.reg q := by simp [State.writeReg]
@[simp] theorem State.store_writeReg (s : State) (r : Reg) (v : Word) (st : Store) :
    (s.writeReg r v).store st = s.store st := by simp [State.writeReg]
@[simp] theorem State.readCell_writeReg (s : State) (r : Reg) (v : Word) (st : Store) (i : Nat) :
    (s.writeReg r v).readCell st i = s.readCell st i := by simp [State.writeReg]

/-- Two states are equal when every accessor agrees. -/
theorem State.ext_accessors {s t : State} (hr : ∀ r, s.reg r = t.reg r) (hv : s.vramBank = t.vramBank)
    (hw : s.wramBank = t.wramBank) (hst : ∀ st, s.store st = t.store st) (hc : s.cart = t.cart) (hp : s.rsp = t.rsp)
    (hi : s.ill = t.ill) (hn : s.inputs = t.inputs) : s = t := by
  have h1 := hr .af; have h2 := hr .bc; have h3 := hr .de; have h4 := hr .hl; have h5 := hr .sp; have h6 := hr .pc
  have m1 := hst .vram; have m2 := hst .wram; have m3 := hst .oam; have m4 := hst .high
  cases s; cases t; simp_all

end Sys2Proof.Machine
end

