-- ==== Sys2Proof/Laws/Memory.lean ====
section
/-! SUPPORT. A store's cells: read after write, and the canonical form every write keeps. -/

namespace Sys2Proof.Machine

variable {dflt : Nat → Byte} {size lo i j : Nat} {v : Byte} {m rest : Memory}

/-- A canonical list starting above `i` lists nothing for `i`. -/
theorem Memory.read_of_wfFrom_above (h : Memory.wfFrom dflt size lo m = true) (hi : i < lo) :
    Memory.read dflt m i = dflt i := by
  induction m generalizing lo with
  | nil => rfl
  | cons p rest ih =>
    obtain ⟨j, u⟩ := p
    simp only [Memory.wfFrom, Bool.and_eq_true, decide_eq_true_eq] at h
    simp only [Memory.read]
    rw [if_neg (by omega)]
    exact ih h.2 (by omega)

theorem Memory.wfFrom_mono (h : Memory.wfFrom dflt size lo m = true) (hlo : j ≤ lo) :
    Memory.wfFrom dflt size j m = true := by
  cases m with
  | nil => rfl
  | cons p rest =>
    simp only [Memory.wfFrom, Bool.and_eq_true, decide_eq_true_eq] at h ⊢
    exact ⟨⟨⟨by omega, h.1.1.2⟩, h.1.2⟩, h.2⟩

theorem Memory.read_entry_same (h : Memory.read dflt rest i = dflt i) :
    Memory.read dflt (Memory.entry dflt i v rest) i = v := by
  unfold Memory.entry
  split
  · rename_i hv; rw [h, hv]
  · simp [Memory.read]

theorem Memory.read_entry_ne (h : j ≠ i) :
    Memory.read dflt (Memory.entry dflt i v rest) j = Memory.read dflt rest j := by
  unfold Memory.entry
  split
  · rfl
  · simp [Memory.read, h]

theorem Memory.wfFrom_entry (h : Memory.wfFrom dflt size (i + 1) rest = true) (hlo : lo ≤ i) (hi : i < size) :
    Memory.wfFrom dflt size lo (Memory.entry dflt i v rest) = true := by
  unfold Memory.entry
  split
  · exact Memory.wfFrom_mono h (by omega)
  · simp_all [Memory.wfFrom]

/-- A cell reads as the byte just written to it. -/
theorem Memory.read_write_same (h : Memory.wfFrom dflt size lo m = true) :
    Memory.read dflt (Memory.write dflt m i v) i = v := by
  induction m generalizing lo with
  | nil => exact Memory.read_entry_same rfl
  | cons p rest ih =>
    obtain ⟨j, u⟩ := p
    have h' := h
    simp only [Memory.wfFrom, Bool.and_eq_true, decide_eq_true_eq] at h
    simp only [Memory.write]
    split
    · rename_i hij
      apply Memory.read_entry_same
      simp only [Memory.read]
      rw [if_neg (by omega)]
      exact Memory.read_of_wfFrom_above h.2 (by omega)
    · split
      · rename_i hij
        exact Memory.read_entry_same (Memory.read_of_wfFrom_above h.2 (by omega))
      · simp only [Memory.read]
        rw [if_neg (by omega)]
        exact ih h.2

/-- A write leaves every other cell alone, whatever the list. -/
theorem Memory.read_write_ne (h : j ≠ i) :
    Memory.read dflt (Memory.write dflt m i v) j = Memory.read dflt m j := by
  induction m with
  | nil => exact Memory.read_entry_ne h
  | cons p rest ih =>
    obtain ⟨k, u⟩ := p
    simp only [Memory.write]
    split
    · exact Memory.read_entry_ne h
    · split
      · rename_i hik
        rw [Memory.read_entry_ne h]
        simp [Memory.read, show j ≠ k by omega]
      · simp [Memory.read, ih]

theorem Memory.wfFrom_write (h : Memory.wfFrom dflt size lo m = true) (hlo : lo ≤ i) (hi : i < size) :
    Memory.wfFrom dflt size lo (Memory.write dflt m i v) = true := by
  induction m generalizing lo with
  | nil => exact Memory.wfFrom_entry rfl hlo hi
  | cons p rest ih =>
    obtain ⟨j, u⟩ := p
    have h' := h
    simp only [Memory.wfFrom, Bool.and_eq_true, decide_eq_true_eq] at h
    simp only [Memory.write]
    split
    · apply Memory.wfFrom_entry _ hlo hi
      simp only [Memory.wfFrom, Bool.and_eq_true, decide_eq_true_eq]
      exact ⟨⟨⟨by omega, h.1.1.2⟩, h.1.2⟩, h.2⟩
    · split
      · rename_i hij
        subst hij
        exact Memory.wfFrom_entry h.2 hlo hi
      · simp only [Memory.wfFrom, Bool.and_eq_true, decide_eq_true_eq]
        exact ⟨h.1, ih h.2 (by omega)⟩

/-- Every write keeps a store's canonical form. -/
theorem Memory.wf_write (h : Memory.wf dflt size m = true) (hi : i < size) :
    Memory.wf dflt size (Memory.write dflt m i v) = true :=
  Memory.wfFrom_write h (Nat.zero_le i) hi

/-- Two canonical lists that read alike everywhere are the same list. -/
theorem Memory.eq_of_read_eq {m n : Memory} (hm : Memory.wfFrom dflt size lo m = true)
    (hn : Memory.wfFrom dflt size lo n = true) (h : ∀ k, Memory.read dflt m k = Memory.read dflt n k) : m = n := by
  induction m generalizing lo n with
  | nil =>
    cases n with
    | nil => rfl
    | cons q rest =>
      obtain ⟨k, w⟩ := q
      simp only [Memory.wfFrom, Bool.and_eq_true, decide_eq_true_eq] at hn
      have := h k
      simp only [Memory.read, if_pos] at this
      exact absurd this.symm hn.1.2
  | cons p rest ih =>
    obtain ⟨j, u⟩ := p
    have hm' := hm
    simp only [Memory.wfFrom, Bool.and_eq_true, decide_eq_true_eq] at hm
    cases n with
    | nil =>
      have := h j
      simp only [Memory.read, if_pos] at this
      exact absurd this hm.1.2
    | cons q rest' =>
      obtain ⟨k, w⟩ := q
      have hn' := hn
      simp only [Memory.wfFrom, Bool.and_eq_true, decide_eq_true_eq] at hn
      rcases Nat.lt_trichotomy j k with hjk | hjk | hjk
      · have := h j
        simp only [Memory.read, if_pos] at this
        rw [if_neg (by omega), Memory.read_of_wfFrom_above hn.2 (by omega)] at this
        exact absurd this hm.1.2
      · subst hjk
        have hu := h j
        simp only [Memory.read, if_pos] at hu
        subst hu
        congr 1
        apply ih hm.2 hn.2
        intro a
        have ha := h a
        simp only [Memory.read] at ha
        by_cases haj : a = j
        · rw [haj, Memory.read_of_wfFrom_above hm.2 (by omega), Memory.read_of_wfFrom_above hn.2 (by omega)]
        · simpa [haj] using ha
      · have := h k
        simp only [Memory.read, if_pos] at this
        rw [if_neg (by omega), Memory.read_of_wfFrom_above hm.2 (by omega)] at this
        exact absurd this.symm hn.1.2

/-- The cell written reads as the byte written. -/
theorem State.readCell_writeCell_same {s : State} {st : Store}
    (h : Memory.wf st.resetByte st.size (s.store st) = true) : (s.writeCell st i v).readCell st i = v := by
  simp only [State.readCell, State.writeCell, State.store_setStore, if_pos]
  exact Memory.read_write_same h

/-- Every other cell, of this store and of the others, is as before. -/
theorem State.readCell_writeCell_ne {s : State} {st q : Store} (h : ¬(q = st ∧ j = i)) :
    (s.writeCell st i v).readCell q j = s.readCell q j := by
  simp only [State.readCell, State.writeCell, State.store_setStore]
  by_cases hq : q = st
  · subst hq
    rw [if_pos rfl]
    exact Memory.read_write_ne fun hj => h ⟨rfl, hj⟩
  · rw [if_neg hq]

/-- A write inside a store keeps all four stores canonical. -/
theorem State.storesWf_writeCell {s : State} {st : Store} (h : s.storesWf) (hi : i < st.size) :
    (s.writeCell st i v).storesWf := by
  intro q
  simp only [State.writeCell, State.store_setStore]
  by_cases hq : q = st
  · subst hq
    rw [if_pos rfl]
    exact Memory.wf_write (h q) hi
  · rw [if_neg hq]
    exact h q

end Sys2Proof.Machine
end

