-- ==== Sys2Proof/Laws/Operands.lean ====
section
/-! SUPPORT. The byte views, the mask and the flags, bit by bit. -/

namespace Sys2Proof.Machine

theorem getLsbD_hiByte (v : Word) (k : Nat) : (hiByte v).getLsbD k = (decide (k < 8) && v.getLsbD (8 + k)) := by
  simp [hiByte]

theorem getLsbD_loByte (v : Word) (k : Nat) : (loByte v).getLsbD k = (decide (k < 8) && v.getLsbD k) := by
  simp [loByte]

theorem getLsbD_joinBytes (hi lo : Byte) (k : Nat) :
    (joinBytes hi lo).getLsbD k = if k < 8 then lo.getLsbD k else hi.getLsbD (k - 8) :=
  BitVec.getLsbD_append

theorem getLsbD_zext16 (b : Byte) (k : Nat) : (zext16 b).getLsbD k = b.getLsbD k := by
  simp only [zext16, BitVec.getLsbD_setWidth]
  by_cases h : k < 16
  · simp [h]
  · simp [BitVec.getLsbD_of_ge b k (by omega)]

/-- The AF mask keeps bits 15 to 4 (10_state.md R12). -/
theorem getLsbD_afMask (k : Nat) : Config.afMask.getLsbD k = (decide (4 ≤ k) && decide (k < 16)) := by
  by_cases h : k < 16
  · have : ∀ j : Fin 16, Config.afMask.getLsbD j = (decide (4 ≤ j.1) && decide (j.1 < 16)) := by decide
    exact this ⟨k, h⟩
  · rw [BitVec.getLsbD_of_ge Config.afMask k (by omega)]
    simp [h]

/-- Every register but AF keeps all its bits (10_state.md R12). -/
theorem and_regMask_of_ne {r : Reg} (h : r ≠ .af) (v : Word) : v &&& regMask r = v := by
  cases r <;> first | exact absurd rfl h | exact BitVec.and_allOnes

@[simp] theorem hiByte_joinBytes (hi lo : Byte) : hiByte (joinBytes hi lo) = hi := by
  apply BitVec.eq_of_getLsbD_eq
  intro k hk
  rw [getLsbD_hiByte, getLsbD_joinBytes, if_neg (by omega), Nat.add_sub_cancel_left, decide_eq_true hk, Bool.true_and]

@[simp] theorem loByte_joinBytes (hi lo : Byte) : loByte (joinBytes hi lo) = lo := by
  apply BitVec.eq_of_getLsbD_eq
  intro k hk
  rw [getLsbD_loByte, getLsbD_joinBytes, if_pos hk, decide_eq_true hk, Bool.true_and]

/-- A value is its two bytes. -/
@[simp] theorem joinBytes_hiByte_loByte (v : Word) : joinBytes (hiByte v) (loByte v) = v := by
  apply BitVec.eq_of_getLsbD_eq
  intro k hk
  rw [getLsbD_joinBytes, getLsbD_hiByte, getLsbD_loByte]
  by_cases h : k < 8
  · simp [h]
  · simp only [if_neg h, show k - 8 < 8 by omega, show 8 + (k - 8) = k by omega]
    simp

/-- The AF invariant, bit by bit (10_state.md R13). -/
theorem afMasked_iff (s : State) : s.afMasked ↔ ∀ k, k < 4 → s.af.getLsbD k = false := by
  constructor
  · intro h k hk
    have hb : (s.af &&& ~~~Config.afMask).getLsbD k = (0 : Word).getLsbD k := by rw [h]
    rw [BitVec.getLsbD_and, BitVec.getLsbD_not, getLsbD_afMask, decide_eq_false (show ¬4 ≤ k by omega),
      decide_eq_true (show k < 16 by omega)] at hb
    simpa only [Bool.false_and, Bool.not_false, Bool.and_true, BitVec.ofNat_eq_ofNat, BitVec.getLsbD_zero] using hb
  · intro h
    apply BitVec.eq_of_getLsbD_eq
    intro k hk
    rw [BitVec.getLsbD_and, BitVec.getLsbD_not, getLsbD_afMask, BitVec.ofNat_eq_ofNat, BitVec.getLsbD_zero]
    by_cases h4 : k < 4
    · rw [h k h4, Bool.false_and]
    · rw [decide_eq_true (show 4 ≤ k by omega), decide_eq_true hk]
      simp only [Bool.and_self, Bool.not_true, Bool.and_false]

/-- A value written to AF satisfies the invariant whatever it was (40_register_pair_ops.md R127). -/
theorem afMasked_writeReg_af (s : State) (v : Word) : (s.writeReg .af v).afMasked := by
  rw [afMasked_iff]
  intro k hk
  simp only [State.writeReg, State.af_setReg, if_true, regMask, BitVec.getLsbD_and, getLsbD_afMask,
    decide_eq_false (show ¬4 ≤ k by omega), Bool.false_and, Bool.and_false]

theorem flagBit_bounds (x : Flag) : 4 ≤ flagBit x ∧ flagBit x < 8 := by cases x <;> decide

theorem flagBit_injective {x y : Flag} (h : flagBit x = flagBit y) : x = y := by
  cases x <;> cases y <;> first | rfl | exact absurd h (by decide)

theorem getLsbD_flagMask (x : Flag) (k : Nat) : (flagMask x).getLsbD k = decide (k = flagBit x) := by
  by_cases h : k < 8
  · have : ∀ (x : Flag) (j : Fin 8), (flagMask x).getLsbD j = decide (j.1 = flagBit x) := by
      intro x; cases x <;> decide
    exact this x ⟨k, h⟩
  · have := (flagBit_bounds x).2
    rw [BitVec.getLsbD_of_ge (flagMask x) k (by omega)]
    simp [show k ≠ flagBit x by omega]

/-- The flags byte after a setter, bit by bit (41_flag_ops.md R149, R150). -/
theorem getLsbD_withFlag (lo : Byte) (x : Flag) (f : Bool) (k : Nat) :
    (withFlag lo x f).getLsbD k = if k = flagBit x then f else lo.getLsbD k := by
  have hb := (flagBit_bounds x).2
  unfold withFlag
  by_cases hk : k = flagBit x
  · cases f <;> simp [getLsbD_flagMask, hk]
  · cases f
    · simp only [Bool.false_eq_true, if_false, BitVec.getLsbD_and, BitVec.getLsbD_not, getLsbD_flagMask, hk]
      by_cases h8 : k < 8
      · simp [h8]
      · simp [BitVec.getLsbD_of_ge lo k (by omega)]
    · simp [getLsbD_flagMask, hk]

/-- AF after a setter, bit by bit, in every state: the flag's bit takes the value, bits 3 to 0 are 0, the rest stays. -/
theorem getLsbD_af_writeFlag (s : State) (x : Flag) (f : Bool) (k : Nat) :
    (s.writeFlag x f).af.getLsbD k = if k = flagBit x then f else (decide (4 ≤ k) && s.af.getLsbD k) := by
  obtain ⟨h4, h8⟩ := flagBit_bounds x
  simp only [State.writeFlag, State.writeReg, State.af_setReg, if_true, State.reg_af, regMask, BitVec.getLsbD_and,
    getLsbD_joinBytes, getLsbD_withFlag, getLsbD_hiByte, getLsbD_loByte, getLsbD_afMask]
  by_cases hk : k = flagBit x
  · subst hk
    simp [h8, h4, show flagBit x < 16 by omega]
  · by_cases h16 : k < 16
    · by_cases hk8 : k < 8
      · simp [hk, hk8, h16, Bool.and_comm]
      · simp [hk, hk8, h16, show k - 8 < 8 by omega, show 8 + (k - 8) = k by omega, show 4 ≤ k by omega]
    · simp [hk, show ¬k < 8 by omega, h16, BitVec.getLsbD_of_ge s.af k (by omega)]

/-- A flag after a setter of any flag (41_flag_ops.md R150). -/
theorem flag_writeFlag (s : State) (x y : Flag) (f : Bool) :
    (s.writeFlag x f).flag y = if y = x then f else s.flag y := by
  obtain ⟨h4, h8⟩ := flagBit_bounds y
  simp only [State.flag, State.reg_af, getLsbD_loByte, getLsbD_af_writeFlag]
  by_cases h : y = x
  · simp [h, (flagBit_bounds x).2]
  · simp [h, h8, h4, show flagBit y ≠ flagBit x from fun e => h (flagBit_injective e)]

end Sys2Proof.Machine
end

