-- ==== Sys2Proof/Laws/Ops.lean ====
section
/-! SUPPORT. What each shared operation can do, said once. -/

namespace Sys2Proof.Machine

/-- Everything the write path can do (43_write8.md R180). -/
theorem writeByte_cases (s : State) (a : Word) (v : Byte) :
    (target a s.vramBank s.wramBank = .cartROM ∧ s.writeByte a v = s.callCart (.writeROM a v)) ∨
    (target a s.vramBank s.wramBank = .cartRAM ∧ s.writeByte a v = s.callCart (.writeRAM a v)) ∨
    (∃ st i, target a s.vramBank s.wramBank = .cell st i ∧ s.writeByte a v = (s.writeCell st i v).selectBanks a v) ∨
    (target a s.vramBank s.wramBank = .noStore ∧ s.writeByte a v = s) := by
  unfold State.writeByte
  split
  · exact .inl ⟨‹_›, rfl⟩
  · exact .inr (.inl ⟨‹_›, rfl⟩)
  · exact .inr (.inr (.inl ⟨_, _, ‹_›, rfl⟩))
  · exact .inr (.inr (.inr ⟨‹_›, rfl⟩))

/-- An address that reaches no cell is no bank-select register. -/
theorem target_not_cell_ne {a : Word} {vb : BitVec 1} {wb : BitVec 3} {x : Target} (t : target a vb wb = x)
    (h : ∀ st i, x ≠ .cell st i) : a ≠ Config.vbkAddr ∧ a ≠ Config.svbkAddr :=
  ⟨fun e => h .high 0x4F (t ▸ e ▸ target_vbkAddr vb wb), fun e => h .high 0x70 (t ▸ e ▸ target_svbkAddr vb wb)⟩

/-- A WRITE8 changes no register (43_write8.md R180). -/
@[simp] theorem reg_writeByte (s : State) (a : Word) (v : Byte) (r : Reg) : (s.writeByte a v).reg r = s.reg r := by
  rcases writeByte_cases s a v with ⟨_, h⟩ | ⟨_, h⟩ | ⟨st, i, _, h⟩ | ⟨_, h⟩ <;> simp [h]

@[simp] theorem inputs_writeByte (s : State) (a : Word) (v : Byte) : (s.writeByte a v).inputs = s.inputs := by
  rcases writeByte_cases s a v with ⟨_, h⟩ | ⟨_, h⟩ | ⟨st, i, _, h⟩ | ⟨_, h⟩ <;> simp [h]

/-- The bank indices after a WRITE8 (20_memory.md R57, R58). -/
@[simp] theorem vramBank_writeByte (s : State) (a : Word) (v : Byte) :
    (s.writeByte a v).vramBank = if a = Config.vbkAddr then vramBankOfByte v else s.vramBank := by
  rcases writeByte_cases s a v with ⟨t, h⟩ | ⟨t, h⟩ | ⟨st, i, t, h⟩ | ⟨t, h⟩
  · rw [if_neg (target_not_cell_ne t (by simp)).1]; simp [h]
  · rw [if_neg (target_not_cell_ne t (by simp)).1]; simp [h]
  · simp [h]
  · rw [if_neg (target_not_cell_ne t (by simp)).1, h]

@[simp] theorem wramBank_writeByte (s : State) (a : Word) (v : Byte) :
    (s.writeByte a v).wramBank = if a = Config.svbkAddr then wramBankOfByte v else s.wramBank := by
  rcases writeByte_cases s a v with ⟨t, h⟩ | ⟨t, h⟩ | ⟨st, i, t, h⟩ | ⟨t, h⟩
  · rw [if_neg (target_not_cell_ne t (by simp)).2]; simp [h]
  · rw [if_neg (target_not_cell_ne t (by simp)).2]; simp [h]
  · simp [h]
  · rw [if_neg (target_not_cell_ne t (by simp)).2, h]

/-- Every cell a WRITE8 does not reach is as before (43_write8.md R191). -/
theorem readCell_writeByte_ne {s : State} {a : Word} {v : Byte} {st : Store} {i : Nat}
    (h : target a s.vramBank s.wramBank ≠ .cell st i) : (s.writeByte a v).readCell st i = s.readCell st i := by
  rcases writeByte_cases s a v with ⟨_, e⟩ | ⟨_, e⟩ | ⟨q, j, t, e⟩ | ⟨_, e⟩
  · simp [e]
  · simp [e]
  · rw [e, State.readCell_selectBanks]
    exact State.readCell_writeCell_ne fun ⟨h1, h2⟩ => h (by rw [t, h1, h2])
  · rw [e]

/-- The cell a WRITE8 reaches holds the byte (20_memory.md R53). -/
theorem readCell_writeByte_same {s : State} {a : Word} {v : Byte} {st : Store} {i : Nat} (hs : s.storesWf)
    (h : target a s.vramBank s.wramBank = .cell st i) : (s.writeByte a v).readCell st i = v := by
  rcases writeByte_cases s a v with ⟨t, _⟩ | ⟨t, _⟩ | ⟨q, j, t, e⟩ | ⟨t, _⟩
  · simp [t] at h
  · simp [t] at h
  · rw [t] at h
    cases h
    rw [e, State.readCell_selectBanks]
    exact State.readCell_writeCell_same (hs st)
  · simp [t] at h

/-- The read path, by what the address resolves to. -/
theorem readByte_of_cell {s : State} {a : Word} {st : Store} {i : Nat} (h : target a s.vramBank s.wramBank = .cell st i) :
    s.readByte a = s.readCell st i := by simp [State.readByte, h]

theorem readByte_of_noStore {s : State} {a : Word} (h : target a s.vramBank s.wramBank = .noStore) :
    s.readByte a = Config.sentinel := by simp [State.readByte, h]

/-- A WRITE8 to an address that reaches a cell writes that cell and, at a select register, its bank. -/
theorem writeByte_of_cell {s : State} {a : Word} {v : Byte} {st : Store} {i : Nat}
    (h : target a s.vramBank s.wramBank = .cell st i) : s.writeByte a v = (s.writeCell st i v).selectBanks a v := by
  simp [State.writeByte, h]

/-- A write to any address but the two select registers selects nothing. -/
theorem selectBanks_of_ne {s : State} {a : Word} {v : Byte} (h1 : a ≠ Config.vbkAddr) (h2 : a ≠ Config.svbkAddr) :
    s.selectBanks a v = s := by
  unfold State.selectBanks
  rw [if_neg h1, if_neg h2]

/-- The read path looks at the banks, the cells and the Cartridge and at nothing else. -/
theorem readByte_congr {s t : State} (hv : t.vramBank = s.vramBank) (hw : t.wramBank = s.wramBank)
    (hm : ∀ st i, t.readCell st i = s.readCell st i) (hc : t.cart = s.cart) (a : Word) : t.readByte a = s.readByte a := by
  simp [State.readByte, hv, hw, hm, hc]

@[simp] theorem readByte_respond (s : State) (v a : Word) : (s.respond v).readByte a = s.readByte a :=
  readByte_congr rfl rfl (by simp) rfl a

@[simp] theorem readByte_illegalResponse (s : State) (a : Word) : s.illegalResponse.readByte a = s.readByte a :=
  readByte_congr rfl rfl (by simp) rfl a

@[simp] theorem readByte_writeReg (s : State) (r : Reg) (v a : Word) : (s.writeReg r v).readByte a = s.readByte a :=
  readByte_congr (by simp) (by simp) (by simp) (by simp) a

/-- Taking an input touches nothing but the list of inputs. -/
theorem takeInput_eq_some {s t : State} {x : Input} (h : s.takeInput = some (x, t)) :
    ∃ rest, s.inputs = x :: rest ∧ t = { s with inputs := rest } := by
  unfold State.takeInput at h
  split at h
  · cases h
  · injection h with h
    injection h with h1 h2
    exact ⟨_, by rw [‹s.inputs = _›, h1], h2.symm⟩

theorem takeInput_eq_none {s : State} (h : s.takeInput = none) : s.inputs = [] := by
  unfold State.takeInput at h
  split at h
  · assumption
  · cases h

/-- Everything one step can do: stay idle, take the reset event, answer an ILLEGAL word, or run the decoded operation. -/
theorem step_cases {s t : State} (h : step s = .next t) :
    (s.inputs = [] ∧ t = s) ∨
    (∃ rest, s.inputs = .reset :: rest ∧ t = ({ s with inputs := rest } : State).resetEvent) ∨
    (∃ c e rest, s.inputs = .command c :: rest ∧ decode c = .error e ∧
      t = ({ s with inputs := rest } : State).illegalResponse) ∨
    (∃ c i rest, s.inputs = .command c :: rest ∧ decode c = .ok i ∧
      exec i { s with inputs := rest } = .next t) := by
  unfold step at h
  split at h
  · injection h with h
    exact .inl ⟨takeInput_eq_none ‹_›, h.symm⟩
  · obtain ⟨rest, h1, rfl⟩ := takeInput_eq_some ‹_›
    injection h with h
    exact .inr (.inl ⟨rest, h1, h.symm⟩)
  · rename_i c u ht
    obtain ⟨rest, h1, rfl⟩ := takeInput_eq_some ht
    split at h
    · exact .inr (.inr (.inr ⟨c, _, rest, h1, ‹_›, h⟩))
    · injection h with h
      exact .inr (.inr (.inl ⟨c, _, rest, h1, ‹_›, h.symm⟩))

/-- A run takes its first step and goes on from there. -/
theorem run_of_step {s t : State} (h : step s = .next t) (k : Nat) :
    Host.Core.run Sys2Proof.core (k + 1) s = Host.Core.run Sys2Proof.core k t := by
  have run_succ : ∀ (M : Host.Core) (u u' : M.State), M.step u = .next u' → M.run (k + 1) u = M.run k u' := by
    intro M u u' hu
    unfold Host.Core.run
    rw [hu]
    cases k <;> rfl
  exact run_succ Sys2Proof.core s t h

end Sys2Proof.Machine
end

