-- ==== Sys2Proof/Laws/PerInstr.lean ====
section
/-! SUPPORT. Per-instruction facts about the encoding: the four fields of each operation's word are those of the opcode
map R93. -/

namespace Sys2Proof.Laws

/-- The opcode of R93. -/
def opcodeOf : Instr → BitVec 5
  | .hi _ => 0x01
  | .lo _ => 0x02
  | .value _ => 0x03
  | .setHi _ _ => 0x04
  | .setLo _ _ => 0x05
  | .set _ _ => 0x06
  | .zero => 0x08
  | .subtract => 0x09
  | .halfCarry => 0x0A
  | .carry => 0x0B
  | .setZero _ => 0x0C
  | .setSubtract _ => 0x0D
  | .setHalfCarry _ => 0x0E
  | .setCarry _ => 0x0F
  | .read8 _ => 0x10
  | .write8 _ _ => 0x11

/-- The register select of the operation's word, 0 where it has none (R94, R95). -/
def selectOf : Instr → BitVec 3
  | .hi r => r.code
  | .lo r => r.code
  | .value r => r.code
  | .setHi r _ => r.code
  | .setLo r _ => r.code
  | .set r _ => r.code
  | .zero => 0
  | .subtract => 0
  | .halfCarry => 0
  | .carry => 0
  | .setZero _ => 0
  | .setSubtract _ => 0
  | .setHalfCarry _ => 0
  | .setCarry _ => 0
  | .read8 _ => 0
  | .write8 _ _ => 0

/-- The word of `i` carries `i`'s opcode and register select in the fields of R92. -/
def EncodedSelectors.Statement (i : Instr) : Prop :=
  opField (encode i) = opcodeOf i ∧ rField (encode i) = selectOf i

theorem EncodedSelectors.hi (r : Reg) : Statement (.hi r) := by simp [Statement, encode, opcodeOf, selectOf]
theorem EncodedSelectors.lo (r : Reg) : Statement (.lo r) := by simp [Statement, encode, opcodeOf, selectOf]
theorem EncodedSelectors.value (r : Reg) : Statement (.value r) := by simp [Statement, encode, opcodeOf, selectOf]
theorem EncodedSelectors.setHi (r : Reg) (b : Byte) : Statement (.setHi r b) := by
  simp [Statement, encode, opcodeOf, selectOf]
theorem EncodedSelectors.setLo (r : Reg) (b : Byte) : Statement (.setLo r b) := by
  simp [Statement, encode, opcodeOf, selectOf]
theorem EncodedSelectors.set (r : Reg) (w : Word) : Statement (.set r w) := by
  simp [Statement, encode, opcodeOf, selectOf]
theorem EncodedSelectors.zero : Statement .zero := by simp [Statement, encode, opcodeOf, selectOf]
theorem EncodedSelectors.subtract : Statement .subtract := by simp [Statement, encode, opcodeOf, selectOf]
theorem EncodedSelectors.halfCarry : Statement .halfCarry := by simp [Statement, encode, opcodeOf, selectOf]
theorem EncodedSelectors.carry : Statement .carry := by simp [Statement, encode, opcodeOf, selectOf]
theorem EncodedSelectors.setZero (f : Bool) : Statement (.setZero f) := by simp [Statement, encode, opcodeOf, selectOf]
theorem EncodedSelectors.setSubtract (f : Bool) : Statement (.setSubtract f) := by
  simp [Statement, encode, opcodeOf, selectOf]
theorem EncodedSelectors.setHalfCarry (f : Bool) : Statement (.setHalfCarry f) := by
  simp [Statement, encode, opcodeOf, selectOf]
theorem EncodedSelectors.setCarry (f : Bool) : Statement (.setCarry f) := by simp [Statement, encode, opcodeOf, selectOf]
theorem EncodedSelectors.read8 (w : Word) : Statement (.read8 w) := by simp [Statement, encode, opcodeOf, selectOf]
theorem EncodedSelectors.write8 (w : Word) (b : Byte) : Statement (.write8 w b) := by
  simp [Statement, encode, opcodeOf, selectOf]

end Sys2Proof.Laws
end

