-- ==== Sys2Proof/Tests/Slice0.lean ====
section
/-! SUPPORT. The model's own tests. Every expected value is copied from spec/95_test_vectors.md or from an example of the
rule named; none comes from the model. The `witness_` theorems show states and operands that meet the hypotheses of each
obligation, clause by clause, at boundary values. -/

namespace Sys2Proof.Tests

open Sys2Proof Sys2Proof.Machine

/-- One component of the state an operation leaves. -/
def after {α : Type} (o : Host.Outcome State Fault Refusal) (f : State → α) : Option α :=
  match o with
  | .next t => some (f t)
  | .fault r => nomatch r
  | .refused _ => none

/-- The state after reset with one command word presented. -/
def given (c : Command) : State := { State.reset with inputs := [.command c] }

/-! ## WellFormed refuses the byte views of PC (30_encoding.md R99) -/

theorem test_hi_pc_ill_formed : Instr.wellFormed (.hi .pc) = false := by decide
theorem test_lo_pc_ill_formed : Instr.wellFormed (.lo .pc) = false := by decide
theorem test_setHi_pc_ill_formed : Instr.wellFormed (.setHi .pc 0x12) = false := by decide
theorem test_setLo_pc_ill_formed : Instr.wellFormed (.setLo .pc 0x12) = false := by decide

/-! ## Decoding: words written out as op, r, w, b (30_encoding.md R92, R93; examples of R103 and 95_test_vectors.md) -/

theorem test_decode_hi : decode 0b00001_001_0000000000000000_00000000 = .ok (.hi .bc) := rfl
theorem test_decode_lo : decode 0b00010_000_0000000000000000_00000000 = .ok (.lo .af) := rfl
theorem test_decode_value : decode 0b00011_101_0000000000000000_00000000 = .ok (.value .pc) := rfl
theorem test_decode_setHi : decode 0b00100_000_0000000000000000_10101011 = .ok (.setHi .af 0xAB) := rfl
theorem test_decode_setLo : decode 0b00101_100_0000000000000000_11111111 = .ok (.setLo .sp 0xFF) := rfl
theorem test_decode_set : decode 0b00110_011_1100000011011110_00000000 = .ok (.set .hl 0xC0DE) := rfl
theorem test_decode_zero : decode 0b01000_000_0000000000000000_00000000 = .ok .zero := rfl
theorem test_decode_subtract : decode 0b01001_000_0000000000000000_00000000 = .ok .subtract := rfl
theorem test_decode_halfCarry : decode 0b01010_000_0000000000000000_00000000 = .ok .halfCarry := rfl
theorem test_decode_carry : decode 0b01011_000_0000000000000000_00000000 = .ok .carry := rfl
theorem test_decode_setZero : decode 0b01100_000_0000000000000000_00000001 = .ok (.setZero true) := rfl
theorem test_decode_setSubtract : decode 0b01101_000_0000000000000000_00000000 = .ok (.setSubtract false) := rfl
theorem test_decode_setHalfCarry : decode 0b01110_000_0000000000000000_00000001 = .ok (.setHalfCarry true) := rfl
theorem test_decode_setCarry : decode 0b01111_000_0000000000000000_00000001 = .ok (.setCarry true) := rfl
theorem test_decode_read8 : decode 0b10000_000_1111111111111111_00000000 = .ok (.read8 0xFFFF) := rfl
theorem test_decode_write8 : decode 0b10001_000_1101000001010000_01000010 = .ok (.write8 0xD050 0x42) := rfl

/-- V-ILL of 95_test_vectors.md, every row. -/
theorem test_illegal_words :
    ((([0x00000000, 0xFFFFFFFF, 0x38000000, 0x90000000, 0x08000001, 0x0D000000, 0x15000000, 0x25000012, 0x2D000012,
        0x1E000000] : List Command)
      ++ [0x36000000, 0x30123401, 0x20000100, 0x41000000, 0x40000100, 0x60000002, 0x7C000001, 0x81000000, 0x80000001,
        0x89000000]).all fun c => (decode c).toOption.isNone) = true := rfl

/-- The host's entry to the decoder reads the table's own numbering (`WRITE8 0xD050, 0x42` and a reserved word). -/
theorem test_decodeTableWord :
    decodeTableWord 32 0x88D05042 = some (.write8 0xD050 0x42) ∧ decodeTableWord 32 0x38000000 = none := by decide

/-! ## One operation each (V-REG, V-FLG, S4, S7, V-BNK, V-BND and the rules' examples) -/

theorem test_hi : after (exec (.hi .bc) { State.reset with bc := 0xBE0F }) State.rsp = some 0x00BE := by decide
theorem test_lo : after (exec (.lo .af) { State.reset with af := 0x1280 }) State.rsp = some 0x0080 := by decide
theorem test_value : after (exec (.value .pc) State.reset) State.rsp = some 0x0100 := by decide
theorem test_setHi : after (exec (.setHi .af 0xAB) { State.reset with af := 0x1280 }) State.af = some 0xAB80 := by decide
theorem test_setHi_keeps_low : after (exec (.setHi .bc 0xFF) { State.reset with bc := 0x1234 }) State.bc = some 0xFF34 := by
  decide
theorem test_setLo_masks : after (exec (.setLo .af 0x0F) { State.reset with af := 0x12E0 }) State.af = some 0x1200 := by
  decide
theorem test_setLo_unmasked : after (exec (.setLo .bc 0x0F) { State.reset with bc := 0xBEEF }) State.bc = some 0xBE0F := by
  decide
theorem test_set_masks : after (exec (.set .af 0x12FF) State.reset) State.af = some 0x12F0 := by decide
theorem test_set_unmasked : after (exec (.set .de 0xFFFF) State.reset) State.de = some 0xFFFF := by decide
theorem test_zero : after (exec .zero { State.reset with af := 0x1280 }) State.rsp = some 1 := by decide
theorem test_subtract : after (exec .subtract { State.reset with af := 0x1280 }) State.rsp = some 0 := by decide
theorem test_subtract_set : after (exec .subtract { State.reset with af := 0x0040 }) State.rsp = some 1 := by decide
theorem test_halfCarry : after (exec .halfCarry { State.reset with af := 0x0020 }) State.rsp = some 1 := by decide
theorem test_carry : after (exec .carry { State.reset with af := 0x12E0 }) State.rsp = some 0 := by decide
theorem test_carry_set : after (exec .carry { State.reset with af := 0x0010 }) State.rsp = some 1 := by decide
theorem test_setZero : after (exec (.setZero true) { State.reset with af := 0x1200 }) State.af = some 0x1280 := by decide
theorem test_setZero_clear : after (exec (.setZero false) { State.reset with af := 0xFFF0 }) State.af = some 0xFF70 := by
  decide
theorem test_setSubtract : after (exec (.setSubtract true) State.reset) State.af = some 0x0040 := by decide
theorem test_setSubtract_clear :
    after (exec (.setSubtract false) { State.reset with af := 0xFFF0 }) State.af = some 0xFFB0 := by decide
theorem test_setHalfCarry : after (exec (.setHalfCarry true) State.reset) State.af = some 0x0020 := by decide
theorem test_setHalfCarry_clear :
    after (exec (.setHalfCarry false) { State.reset with af := 0xFFF0 }) State.af = some 0xFFD0 := by decide
theorem test_setCarry : after (exec (.setCarry true) { State.reset with af := 0x5A40 }) State.af = some 0x5A50 := by decide
theorem test_setCarry_clear : after (exec (.setCarry false) { State.reset with af := 0x12F0 }) State.af = some 0x12E0 := by
  decide

/-- Reads after reset: V-RST, with conflict C1 decided for the table. -/
theorem test_read8_after_reset :
    ((([(0xFF04, 0x1E), (0xFF05, 0x00), (0xFF47, 0xFC), (0xFF70, 0x00), (0xFFFF, 0x00), (0xDFFF, 0x00)] :
        List (Word × Word)) ++ [(0xE000, 0xFF), (0xFDFF, 0xFF), (0xFE00, 0x00), (0xFEA0, 0xFF), (0xFEFF, 0xFF)]).all fun p =>
      after (exec (.read8 p.1) State.reset) State.rsp == some p.2) = true := rfl

/-- `READ8 0x0100` asks the Cartridge (P4, row 2): the byte is the free value. -/
theorem test_read8_cartridge :
    after (exec (.read8 0x0100) State.reset) State.rsp = some ((Config.cartRead [] 0x0100).setWidth 16) := rfl

/-- `WRITE8 0xFF70, 0xFB` and `WRITE8 0xFF4F, 0xFE` (S4): the bank and the stored byte. -/
theorem test_write8_bank_selects :
    after (exec (.write8 0xFF70 0xFB) State.reset) (fun t => (t.wramBank, t.readByte 0xFF70)) = some (3, 0xFB) ∧
    after (exec (.write8 0xFF4F 0xFE) State.reset) (fun t => (t.vramBank, t.readByte 0xFF4F)) = some (0, 0xFE) := by
  decide

/-- `WRITE8 0xD050, 0x42` with work-RAM bank 3 (S7), and `WRITE8 0x2000, 0x05` (R181). -/
theorem test_write8_store_and_cartridge :
    after (exec (.write8 0xD050 0x42) { State.reset with wramBank := 3 }) State.wram = some [(0x4050, 0x42)] ∧
    after (exec (.write8 0x2000 0x05) State.reset) State.cart = some [.writeROM 0x2000 0x05] := by decide

/-- V-OFF of 95_test_vectors.md: the largest offsets. -/
theorem test_offsets :
    target 0x9FFF 1 1 = .cell .vram 0x3FFF ∧ target 0xD000 0 1 = .cell .wram 0x2000 ∧
    target 0xDFFF 0 7 = .cell .wram 0x8FFF ∧ target 0xCFFF 0 7 = .cell .wram 0x0FFF ∧
    target 0xFE9F 0 1 = .cell .oam 0x9F ∧ target 0xFFFF 0 1 = .cell .high 0xFF := by decide

/-! ## One step -/

/-- P5, row 4: the word 0xFFFFFFFF changes nothing and answers `ill` = 1. -/
theorem test_step_illegal :
    after (step (given 0xFFFFFFFF)) (fun t => (t.ill, t.rsp, t.af, t.inputs)) = some (true, 0, 0, []) := by decide

/-- P5, row 6: `RESET` clears what was written and keeps the Cartridge. -/
theorem test_step_reset :
    after (step { State.reset with hl := 0xC0DE, wramBank := 5, wram := [(0x6000, 0x99)], cart := [.writeROM 0x2000 5],
                                   inputs := [.reset] })
      (fun t => decide (t.hl = 0 ∧ t.wramBank = 1 ∧ t.wram = [] ∧ t.pc = 0x0100 ∧ t.cart = [.writeROM 0x2000 5])) =
      some true := by decide

/-- A word placed by `withFetchWord` is what the next step runs (`SET BC, 0x1234` of V-REG). -/
theorem test_withFetchWord : after (step (State.reset.withFetchWord 32 0x31123400)) State.bc = some 0x1234 := by decide

/-! ## Witnesses -/

/-- A state away from reset that meets the invariant, with a byte at the end of each store. -/
def sample : State :=
  { State.reset with
    af := 0x12F0, bc := 0xBE0F, sp := 0xFFFE, vramBank := 1, wramBank := 7, vram := [(0x3FFF, 0xAA)],
    wram := [(0x0000, 0x21), (0x8FFF, 0x42)], oam := [(0x9F, 0x52)], high := [(0xFF, 0x1F)] }

theorem sample_afMasked : sample.afMasked := by unfold State.afMasked; decide
theorem sample_storesWf : sample.storesWf := fun st => by cases st <;> rfl
theorem sample_inv : sample.Inv := ⟨sample_afMasked, by decide, sample_storesWf⟩

theorem witness_DecodeOfEncodeIsTheOperation : Instr.wellFormed (.setHi .sp 0xFF) = true := by decide
theorem witness_LegalWordIsTheWordOfItsOperation : decode 0x88FFFFFF = .ok (.write8 0xFFFF 0xFF) := rfl
theorem witness_ReservedWordsAreIllegal :
    (0x07FFFFFF#32).toNat / 2 ^ 27 = 0 ∧ (0x38000000#32).toNat / 2 ^ 27 = 7 ∧ 0x12 ≤ (0x90000000#32).toNat / 2 ^ 27 ∧
    0x12 ≤ (0xFFFFFFFF#32).toNat / 2 ^ 27 ∧
    ((0x0D000000#32).toNat / 2 ^ 27 ∈ [0x01, 0x02, 0x04, 0x05] ∧ 5 ≤ (0x0D000000#32).toNat / 2 ^ 24 % 8) ∧
    ((0x37000000#32).toNat / 2 ^ 27 ∈ [0x03, 0x06] ∧ 6 ≤ (0x37000000#32).toNat / 2 ^ 24 % 8) ∧
    (0x08 ≤ (0x89000000#32).toNat / 2 ^ 27 ∧ (0x89000000#32).toNat / 2 ^ 27 ≤ 0x11 ∧ (0x89000000#32).toNat / 2 ^ 24 % 8 ≠ 0) ∧
    ((0x08000001#32).toNat / 2 ^ 27 ∈ [0x01, 0x02, 0x03, 0x08, 0x09, 0x0A, 0x0B] ∧ (0x08000001#32).toNat % 2 ^ 24 ≠ 0) ∧
    ((0x20000100#32).toNat / 2 ^ 27 ∈ [0x04, 0x05] ∧ (0x20000100#32).toNat / 2 ^ 8 % 2 ^ 16 ≠ 0) ∧
    ((0x80000001#32).toNat / 2 ^ 27 ∈ [0x06, 0x10] ∧ (0x80000001#32).toNat % 2 ^ 8 ≠ 0) ∧
    ((0x60000002#32).toNat / 2 ^ 27 ∈ [0x0C, 0x0D, 0x0E, 0x0F] ∧ 2 ≤ (0x60000002#32).toNat % 2 ^ 24) := by decide
theorem witness_StepRunsTheDecodedOperation :
    (given 0x31123400).inputs = .command 0x31123400 :: [] ∧ decode 0x31123400 = .ok (.set .bc 0x1234) := ⟨rfl, rfl⟩
theorem witness_IllegalWordChangesNothing :
    (given 0xFFFFFFFF).inputs = .command 0xFFFFFFFF :: [] ∧ decode 0xFFFFFFFF = .error .reservedOpcode := ⟨rfl, rfl⟩
theorem witness_ResetEventGivesPowerUpState :
    ({ sample with inputs := [.reset] } : State).inputs = .reset :: [] := rfl
theorem witness_IdleBlockStaysAsItIs : sample.inputs = [] := rfl
theorem witness_ResponsesHaveTheStatedForm :
    ∀ i ∈ [Instr.hi .bc, .value .pc, .carry, .set .af 0xFFFF, .setCarry true, .read8 0xFFFF, .write8 0xFFFF 0xFF],
      i.wellFormed = true ∧ ∃ t, exec i sample = .next t := by
  intro i h
  fin_cases h <;> exact ⟨rfl, _, rfl⟩
theorem witness_ResetHighMemoryIsTheTable :
    (0xFF04#16).toNat = 0xFF00 + 0x04 ∧ (0xFFFF#16).toNat = 0xFF00 + 0xFF ∧ 0xFF00 ≤ (0xFF00#16).toNat ∧
    0xFF00 ≤ (0xFFFE#16).toNat ∧ (0xFE, (0 : Byte)) ∉ highResetTable := by decide
theorem witness_StepKeepsTheInvariant : State.Inv { sample with inputs := [.command 0x88FF7000] } ∧
    ∃ t, step { sample with inputs := [.command 0x88FF7000] } = .next t :=
  ⟨⟨sample_afMasked, by decide, fun st => by cases st <;> rfl⟩, _, rfl⟩

theorem witness_HiReturnsTheHighByte : Reg.isPair .sp = true ∧ sample.bc = 0xBE0F := ⟨rfl, rfl⟩
theorem witness_LoReturnsTheLowByte :
    Reg.isPair .sp = true ∧ sample.afMasked ∧ (∃ t, exec (.lo .af) sample = .next t) ∧
    ({ sample with af := 0x1280 } : State).af = 0x1280 := ⟨rfl, sample_afMasked, ⟨_, rfl⟩, rfl⟩
theorem witness_ValueReturnsTheRegister :
    sample.afMasked ∧ (∃ t, exec (.value .af) sample = .next t) ∧ Reg.isPair .af = true ∧
    (∃ h, exec (.hi .af) sample = .next h) ∧ ∃ l, exec (.lo .af) sample = .next l :=
  ⟨sample_afMasked, ⟨_, rfl⟩, rfl, ⟨_, rfl⟩, _, rfl⟩
theorem witness_SetHiReplacesTheHighByte : Reg.isPair .af = true ∧ sample.afMasked := ⟨rfl, sample_afMasked⟩
theorem witness_SetLoReplacesTheLowByte : Reg.isPair .sp = true := rfl
theorem witness_ByteViewsOfPcAreIllegal : decode 0x0C000000 = .ok (.hi .sp) := rfl
theorem witness_AfLowNibbleIsZeroAfterEveryMutation :
    (∃ t, exec (.set .af 0xFFFF) sample = .next t) ∧ (∃ t, exec (.setHi .af 0xFF) sample = .next t) ∧
    (∃ t, exec (.setLo .af 0xFF) sample = .next t) ∧ (∃ t, exec (flagSetter .carry true) sample = .next t) ∧
    (given 0x280000FF).af &&& 0x000F = 0 ∧ ∃ t, step (given 0x280000FF) = .next t :=
  ⟨⟨_, rfl⟩, ⟨_, rfl⟩, ⟨_, rfl⟩, ⟨_, rfl⟩, rfl, _, rfl⟩
theorem witness_AccumulatorAndFlagsByteAreDistinct :
    sample.afMasked ∧ (∃ t, exec (.setHi .af 0xFF) sample = .next t) ∧ ∃ t, exec (.setLo .af 0xFF) sample = .next t :=
  ⟨sample_afMasked, ⟨_, rfl⟩, _, rfl⟩
theorem witness_TwoByteWritesMakeASet :
    Reg.isPair .af = true ∧ (∃ t₁ t₂, exec (.setHi .af (hiByte 0x34FF)) sample = .next t₁ ∧
      exec (.setLo .af (loByte 0x34FF)) t₁ = .next t₂) ∧
    ∃ u₁ u₂, exec (.setLo .af (loByte 0x34FF)) sample = .next u₁ ∧ exec (.setHi .af (hiByte 0x34FF)) u₁ = .next u₂ :=
  ⟨rfl, ⟨_, _, rfl, rfl⟩, _, _, rfl, rfl⟩
theorem witness_ReadsAfterRegisterWrites :
    (∃ t, exec (.set .pc 0xFFFF) sample = .next t) ∧ Reg.isPair .af = true ∧ sample.afMasked ∧
    (∃ t, exec (.setHi .af 0xFF) sample = .next t) ∧ ∃ t, exec (.setLo .af 0xFF) sample = .next t :=
  ⟨⟨_, rfl⟩, rfl, sample_afMasked, ⟨_, rfl⟩, _, rfl⟩

theorem witness_ReadingOperationsChangeNothing :
    (∃ t, exec (.hi .sp) sample = .next t) ∧ (∃ t, exec (flagGetter .zero) sample = .next t) ∧
    ∃ t, exec (.read8 0xFFFF) sample = .next t := ⟨⟨_, rfl⟩, ⟨_, rfl⟩, _, rfl⟩
theorem witness_RegisterWritesChangeOneRegister :
    (∃ t, exec (.setHi .bc 0xFF) sample = .next t) ∧ (∃ t, exec (.setLo .af 0xFF) sample = .next t) ∧
    (∃ t, exec (.set .pc 0xFFFF) sample = .next t) ∧ Reg.pc ≠ .af := ⟨⟨_, rfl⟩, ⟨_, rfl⟩, ⟨_, rfl⟩, by decide⟩
theorem witness_FlagSetterChangesOneBit :
    sample.afMasked ∧ (∃ t, exec (flagSetter .carry false) sample = .next t) ∧ Flag.zero ≠ .carry ∧
    ∃ g, exec (flagGetter .zero) sample = .next g := ⟨sample_afMasked, ⟨_, rfl⟩, by decide, _, rfl⟩
theorem witness_Write8ChangesOneCell :
    (∃ t, exec (.write8 0xDFFF 0x33) sample = .next t) ∧ sample.storesWf ∧
    target 0xDFFF sample.vramBank sample.wramBank = .cell .wram 0x8FFF ∧
    target 0xDFFF sample.vramBank sample.wramBank ≠ .cell .wram 0x0FFF ∧
    (0xDFFF : Word) ≠ Config.vbkAddr ∧ (0xDFFF : Word) ≠ Config.svbkAddr ∧ ¬cartOwned 0xDFFF :=
  ⟨⟨_, rfl⟩, sample_storesWf, by decide, by decide, by decide, by decide, by unfold cartOwned; decide⟩
/-- A bank-select write seen just outside the switched region, and a call of the Cartridge seen just outside it. -/
theorem witness_Write8LeavesOtherAddressesAlone :
    sample.Inv ∧ (∃ t, exec (.write8 Config.vbkAddr 0) sample = .next t) ∧
    ((0x7FFF#16).toNat < 0x8000 ∧ 0x9FFF < (0xA000#16).toNat) ∧
    (∃ t, exec (.write8 Config.svbkAddr 0) sample = .next t) ∧
    ((0xCFFF#16).toNat < 0xD000 ∧ 0xDFFF < (0xE000#16).toNat) ∧
    (∃ t, exec (.write8 0x7FFF 0) sample = .next t) ∧ ¬(cartOwned 0x7FFF ∧ cartOwned 0x8000) :=
  ⟨sample_inv, ⟨_, rfl⟩, by decide, ⟨_, rfl⟩, by decide, ⟨_, rfl⟩, by unfold cartOwned; decide⟩

theorem witness_FlagSettersSetOrClearTheirBit :
    sample.afMasked ∧ (∃ t, exec (flagSetter .zero true) sample = .next t) ∧ 0 ≠ flagBit .zero ∧ 15 ≠ flagBit .zero :=
  ⟨sample_afMasked, ⟨_, rfl⟩, by decide, by decide⟩
theorem witness_FlagSetterIsAByteWriteOfAf :
    (0x72 : Byte) = (if false then loByte 0x12F2 ||| 1#8 <<< flagBit .zero else loByte 0x12F2 &&& ~~~(1#8 <<< flagBit .zero)) := by
  decide
theorem witness_FlagReadsBackAndOthersSurvive :
    (∃ t, exec (flagSetter .zero false) sample = .next t) ∧ (∃ g, exec (flagGetter .zero) sample = .next g) ∧
    (∃ g, exec (flagGetter .carry) sample = .next g) ∧ Flag.carry ≠ .zero := ⟨⟨_, rfl⟩, ⟨_, rfl⟩, ⟨_, rfl⟩, by decide⟩
theorem witness_FlagSettersCommute :
    Flag.zero ≠ .carry ∧ (∃ t₁ t₂, exec (flagSetter .zero false) sample = .next t₁ ∧ exec (flagSetter .carry true) t₁ = .next t₂) ∧
    ∃ u₁ u₂, exec (flagSetter .carry true) sample = .next u₁ ∧ exec (flagSetter .zero false) u₁ = .next u₂ :=
  ⟨by decide, ⟨_, _, rfl, rfl⟩, _, _, rfl, rfl⟩
theorem witness_FlagsByteIsTheFourFlags :
    sample.afMasked ∧ (∃ l, exec (.lo .af) sample = .next l) ∧ (∃ z, exec .zero sample = .next z) ∧
    (∃ n, exec .subtract sample = .next n) ∧ (∃ h, exec .halfCarry sample = .next h) ∧ ∃ c, exec .carry sample = .next c :=
  ⟨sample_afMasked, ⟨_, rfl⟩, ⟨_, rfl⟩, ⟨_, rfl⟩, ⟨_, rfl⟩, _, rfl⟩

theorem witness_FlagsChangeOnlyByTheirWriters :
    ∃ t, step (given 0x60000001) = .next t ∧ t.flag .zero ≠ (given 0x60000001).flag .zero := ⟨_, rfl, by decide⟩
theorem witness_PcChangesOnlyBySetPcAndReset :
    (∃ t, step (given 0x35010100) = .next t ∧ t.pc ≠ (given 0x35010100).pc) ∧
    (∃ t, exec (.set .pc 0xFFFF) sample = .next t) ∧
    (Instr.read8 0x0100 ≠ .value .pc ∧ (∀ v, Instr.read8 0x0100 ≠ .set .pc v) ∧ ∃ t, exec (.read8 0x0100) sample = .next t) :=
  ⟨⟨_, rfl, by decide⟩, ⟨_, rfl⟩, by decide, fun _ => nofun, _, rfl⟩
theorem witness_PairChangesOnlyByItsWriters :
    ∃ t, step (given 0x34FFFE00) = .next t ∧ t.reg .sp ≠ (given 0x34FFFE00).reg .sp := ⟨_, rfl, by decide⟩
theorem witness_BanksChangeOnlyBySelectWrites :
    (∃ t, step (given 0x88FF4F01) = .next t ∧ t.vramBank ≠ (given 0x88FF4F01).vramBank) ∧
    ∃ t, step (given 0x88FF7003) = .next t ∧ t.wramBank ≠ (given 0x88FF7003).wramBank :=
  ⟨⟨_, rfl, by decide⟩, _, rfl, by decide⟩
theorem witness_CartridgeChangedOnlyByWriteCalls :
    (0x0000#16).toNat ≤ 0x7FFF ∧ (0x7FFF#16).toNat ≤ 0x7FFF ∧ 0xA000 ≤ (0xA000#16).toNat ∧ (0xBFFF#16).toNat ≤ 0xBFFF ∧
    ∃ t, step (given 0x88200005) = .next t ∧ t.cart ≠ (given 0x88200005).cart :=
  ⟨by decide, by decide, by decide, by decide, _, rfl, by decide⟩
theorem witness_RegisterOperationsIgnoreTheAddressSpace :
    isRegisterOp (.setLo .af 0xFF) = true ∧ ∃ t, exec (.setLo .af 0xFF) sample = .next t := ⟨rfl, _, rfl⟩
theorem witness_AddressOperationsIgnoreTheRegisters :
    isRegisterOp (.write8 0xFF70 0x07) = false ∧ ∃ t, exec (.write8 0xFF70 0x07) sample = .next t := ⟨rfl, _, rfl⟩

/-- Both ends of every region: 18 addresses at the bounds of 20_memory.md R41, also for READ8 and WRITE8. -/
theorem witness_region_bounds :
    ((([(0x0000, .rom), (0x7FFF, .rom), (0x8000, .vram), (0x9FFF, .vram), (0xA000, .xram), (0xBFFF, .xram),
        (0xC000, .wram0), (0xCFFF, .wram0), (0xD000, .wramx)] : List (Word × Region))
      ++ ([(0xDFFF, .wramx), (0xE000, .echo), (0xFDFF, .echo), (0xFE00, .oam), (0xFE9F, .oam), (0xFEA0, .unusable),
        (0xFEFF, .unusable), (0xFF00, .high), (0xFFFF, .high)] : List (Word × Region))).all fun p =>
      region p.1 == p.2) = true := rfl
theorem witness_OffsetsAreBitFields :
    region 0x9FFF = .vram ∧ region 0xCFFF = .wram0 ∧ region 0xDFFF = .wramx ∧ (7#3) ≠ 0 ∧ region 0xFE9F = .oam ∧
    region 0xFFFF = .high := by decide
theorem witness_ReachedCellsLieInTheirStores :
    target 0xDFFF 1 7 = .cell .wram 0x8FFF ∧ (7#3) ≠ 0 ∧ target 0xCFFF 1 7 = .cell .wram 0x0FFF := by decide
theorem witness_DifferentAddressesReachDifferentCells : target 0xFFFF 1 7 = .cell .high 0xFF := by decide
theorem witness_BanksAreIndependentStorage :
    region 0x8000 = .vram ∧ region 0x9FFF = .vram ∧ (0#1) ≠ 1#1 ∧ region 0xD000 = .wramx ∧ region 0xDFFF = .wramx ∧
    (1#3) ≠ 7#3 ∧ region 0xC000 = .wram0 ∧ region 0xCFFF = .wram0 ∧ (0 : BitVec 1) ≠ sample.vramBank ∧
    (1 : BitVec 3) ≠ sample.wramBank ∧ (∃ t, exec (.write8 0x9FFF 0xBB) sample = .next t) ∧
    ∃ t, exec (.write8 0xDFFF 0xBB) sample = .next t :=
  ⟨by decide, by decide, by decide, by decide, by decide, by decide, by decide, by decide, by decide, by decide,
    ⟨_, rfl⟩, _, rfl⟩
theorem witness_ReadsDoNotSeeUnselectedBanks :
    0x1FFF / 0x2000 ≠ sample.vramBank.toNat ∧ 0x1000 ≤ 0x7FFF ∧ 0x7FFF / 0x1000 ≠ sample.wramBank.toNat + 1 := by decide
/-- The hypothesis of every region clause of READ8 and WRITE8, met at both ends of the region. -/
def RegionClauses : Prop :=
  (0x0000#16).toNat ≤ 0x7FFF ∧ (0x7FFF#16).toNat ≤ 0x7FFF ∧ (0x8000 ≤ (0x8000#16).toNat ∧ (0x9FFF#16).toNat ≤ 0x9FFF) ∧
  (0xA000 ≤ (0xA000#16).toNat ∧ (0xBFFF#16).toNat ≤ 0xBFFF) ∧ (0xC000 ≤ (0xC000#16).toNat ∧ (0xCFFF#16).toNat ≤ 0xCFFF) ∧
  (0xD000 ≤ (0xD000#16).toNat ∧ (0xDFFF#16).toNat ≤ 0xDFFF) ∧ (0xE000 ≤ (0xE000#16).toNat ∧ (0xFDFF#16).toNat ≤ 0xFDFF) ∧
  (0xFE00 ≤ (0xFE00#16).toNat ∧ (0xFE9F#16).toNat ≤ 0xFE9F) ∧
  (0xFEA0 ≤ (0xFEA0#16).toNat ∧ (0xFEFF#16).toNat ≤ 0xFEFF) ∧ 0xFF00 ≤ (0xFF00#16).toNat ∧ 0xFF00 ≤ (0xFFFF#16).toNat

theorem regionClauses : RegionClauses := by unfold RegionClauses; decide
theorem witness_Read8ReturnsTheRegionsByte : RegionClauses := regionClauses
theorem witness_Write8ActsOnTheRegion :
    RegionClauses ∧ 0xFF00 ≤ Config.vbkAddr.toNat ∧ 0xFF00 ≤ Config.svbkAddr.toNat ∧ (0xFB#8).toNat % 8 ≠ 0 ∧
    (0x08#8).toNat % 8 = 0 := ⟨regionClauses, by decide⟩
theorem witness_RegionsWithoutAStore :
    (0xE000 ≤ (0xE000#16).toNat ∧ (0xFDFF#16).toNat ≤ 0xFDFF) ∧ (0xFEA0 ≤ (0xFEA0#16).toNat ∧ (0xFEFF#16).toNat ≤ 0xFEFF) ∧
    ∃ t, exec (.write8 0xC010 0x33) sample = .next t := ⟨by decide, by decide, _, rfl⟩
theorem witness_ReadReturnsTheByteJustWritten :
    sample.Inv ∧ (∀ a ∈ ([0x8000, 0x9FFF, 0xC000, 0xDFFF, 0xFE00, 0xFE9F, 0xFF00, 0xFFFF] : List Word), blockOwned a) ∧
    (∃ t, exec (.write8 0xFFFF 0x00) sample = .next t) ∧ ∃ t, exec (.write8 0xFEA0 0x78) sample = .next t :=
  ⟨sample_inv, fun a h => by fin_cases h <;> (unfold blockOwned; decide), ⟨_, rfl⟩, _, rfl⟩
theorem witness_BankSwitchIsInForceAtOnce :
    (∃ t, exec (.write8 Config.vbkAddr 0xFE) sample = .next t) ∧ (∃ t, exec (.write8 Config.svbkAddr 0x08) sample = .next t) ∧
    sample.storesWf ∧ (0x8000 ≤ (0x9FFF#16).toNat ∧ (0x9FFF#16).toNat ≤ 0x9FFF) ∧
    (0xD000 ≤ (0xDFFF#16).toNat ∧ (0xDFFF#16).toNat ≤ 0xDFFF) :=
  ⟨⟨_, rfl⟩, ⟨_, rfl⟩, sample_storesWf, by decide, by decide⟩
/-- A run of four inputs: a bank switch, a write, a reset event, a write. -/
theorem witness_CellsHoldTheMostRecentWrite :
    State.Inv { sample with inputs := [.command 0x88FF7003, .command 0x88D05042, .reset, .command 0x88D05043] } :=
  ⟨sample_afMasked, by decide, fun st => by cases st <;> rfl⟩

end Sys2Proof.Tests
end

section
/-! SUPPORT. What one operation and one step can do to the block's own state: the layer the proofs about the state, its
invariant and its writers (10_state.md) rest on. -/

namespace Sys2Proof.Machine

/-! ## Pending inputs are outside the block's own state -/

@[simp] theorem State.reg_withInputs (s : State) (l : List Input) (r : Reg) :
    ({ s with inputs := l } : State).reg r = s.reg r := by cases r <;> rfl

@[simp] theorem State.store_withInputs (s : State) (l : List Input) (st : Store) :
    ({ s with inputs := l } : State).store st = s.store st := by cases st <;> rfl

theorem step_of_no_input {s : State} (h : s.inputs = []) : step s = .next s := by
  simp [step, State.takeInput, h]

/-! ## The bytes of a masked AF and the flags in it -/

theorem hiByte_and_afMask (v : Word) : hiByte (v &&& Config.afMask) = hiByte v := by
  apply BitVec.eq_of_getLsbD_eq
  intro k hk
  simp only [getLsbD_hiByte, BitVec.getLsbD_and, getLsbD_afMask]
  simp [show 4 ≤ 8 + k by omega, show 8 + k < 16 by omega]

theorem getLsbD_loByte_and_afMask (v : Word) (k : Nat) :
    (loByte (v &&& Config.afMask)).getLsbD k = (decide (4 ≤ k) && (loByte v).getLsbD k) := by
  simp only [getLsbD_loByte, BitVec.getLsbD_and, getLsbD_afMask]
  by_cases hk : k < 8
  · simp [hk, show k < 16 by omega, Bool.and_comm]
  · simp [hk]

theorem loByte_and_afMask (v : Word) : loByte (v &&& Config.afMask) = loByte v &&& 0xF0 := by
  have nibble : ∀ k : Fin 8, (0xF0#8).getLsbD k = decide (4 ≤ k.1) := by decide
  apply BitVec.eq_of_getLsbD_eq
  intro k hk
  rw [getLsbD_loByte_and_afMask, BitVec.getLsbD_and, Bool.and_comm]
  exact congrArg _ (nibble ⟨k, hk⟩).symm

/-- Where R13 holds the mask changes nothing (10_state.md R12, R13). -/
theorem State.afMasked.af_and_afMask {s : State} (h : s.afMasked) : s.af &&& Config.afMask = s.af := by
  rw [afMasked_iff] at h
  apply BitVec.eq_of_getLsbD_eq
  intro k hk
  rw [BitVec.getLsbD_and, getLsbD_afMask]
  by_cases h4 : k < 4
  · simp [h k h4]
  · simp [hk, show 4 ≤ k by omega]

/-- R13 with its mask as a number: `~AF_MASK` is the low nibble. -/
theorem afMasked_iff_lowNibble (s : State) : s.afMasked ↔ s.af &&& 0x000F = 0 := by
  rw [State.afMasked, show ~~~Config.afMask = 0x000F from by decide]

theorem getLsbD_boolResponse (f : Bool) (k : Nat) : (boolResponse f).getLsbD k = (f && decide (k = 0)) := by
  cases f <;> simp [boolResponse, BitVec.getLsbD_one]

/-- A flag's bit of the value written to AF is above the mask's low nibble, so the flag takes it. -/
theorem flag_writeReg_af (s : State) (v : Word) (x : Flag) :
    (s.writeReg .af v).flag x = (loByte v).getLsbD (flagBit x) := by
  simp only [State.flag, State.reg_writeReg, if_true, regMask, getLsbD_loByte_and_afMask]
  simp [(flagBit_bounds x).1]

theorem flag_writeReg_of_ne {r : Reg} (h : r ≠ .af) (s : State) (v : Word) (x : Flag) :
    (s.writeReg r v).flag x = s.flag x := by
  simp only [State.flag, State.reg_writeReg, if_neg h.symm]

theorem flag_writeByte (s : State) (a : Word) (v : Byte) (x : Flag) : (s.writeByte a v).flag x = s.flag x := by
  simp only [State.flag, reg_writeByte]

/-- A write of a high byte, AF's included, leaves the four flags alone (10_state.md R15). -/
theorem flag_writeReg_hiByte (s : State) (r : Reg) (b : Byte) (x : Flag) :
    (s.writeReg r (joinBytes b (loByte (s.reg r)))).flag x = s.flag x := by
  by_cases h : r = .af
  · subst h
    rw [flag_writeReg_af, loByte_joinBytes, State.flag]
  · exact flag_writeReg_of_ne h s _ x

/-! ## Registers the two writes leave alone -/

@[simp] theorem af_writeByte (s : State) (a : Word) (v : Byte) : (s.writeByte a v).af = s.af := reg_writeByte s a v .af

@[simp] theorem pc_writeByte (s : State) (a : Word) (v : Byte) : (s.writeByte a v).pc = s.pc := reg_writeByte s a v .pc

/-- The byte writes take pairs only, so they never reach the program counter (10_state.md R19). -/
theorem pc_writeReg_of_isPair {r : Reg} (h : r.isPair = true) (s : State) (v : Word) : (s.writeReg r v).pc = s.pc := by
  cases r with
  | pc => cases h
  | af | bc | de | hl | sp => rfl

/-! ## One operation -/

/-- The four flag setters are one operation (41_flag_ops.md R149). -/
theorem exec_flagSetter (x : Flag) (f : Bool) (s : State) :
    exec (flagSetter x f) s = .next ((s.writeFlag x f).respond 0) := by cases x <;> rfl

/-- An operation on a byte of a register acts on a pair and is ILLEGAL on PC (10_state.md R19). -/
theorem onPair_cases (s t : State) (r : Reg) :
    (r.isPair = true ∧ s.onPair r t = t) ∨ (r.isPair = false ∧ s.onPair r t = s.illegalResponse) := by
  cases r <;> simp [State.onPair, Reg.isPair]

/-- Everything one operation can do. An operation that only answers leaves everything but the response ports; a write
changes the state through `writeReg`, `writeFlag` or `writeByte` only; a byte view of PC is ILLEGAL. -/
theorem exec_cases {i : Instr} {s t : State} (h : exec i s = .next t) :
    (∃ v, t = s.respond v) ∨
    (i.wellFormed = false ∧ t = s.illegalResponse) ∨
    (∃ r b, i = .setHi r b ∧ r.isPair = true ∧ t = (s.writeReg r (joinBytes b (loByte (s.reg r)))).respond 0) ∨
    (∃ r b, i = .setLo r b ∧ r.isPair = true ∧ t = (s.writeReg r (joinBytes (hiByte (s.reg r)) b)).respond 0) ∨
    (∃ r w, i = .set r w ∧ t = (s.writeReg r w).respond 0) ∨
    (∃ x f, i = flagSetter x f ∧ t = (s.writeFlag x f).respond 0) ∨
    (∃ a v, i = .write8 a v ∧ t = (s.writeByte a v).respond 0) := by
  cases i with
  | hi r =>
    cases h
    rcases onPair_cases s (s.respond (zext16 (hiByte (s.reg r)))) r with ⟨_, e⟩ | ⟨hp, e⟩
    · exact .inl ⟨_, e⟩
    · exact .inr (.inl ⟨hp, e⟩)
  | lo r =>
    cases h
    rcases onPair_cases s (s.respond (zext16 (loByte (s.reg r)))) r with ⟨_, e⟩ | ⟨hp, e⟩
    · exact .inl ⟨_, e⟩
    · exact .inr (.inl ⟨hp, e⟩)
  | setHi r b =>
    cases h
    rcases onPair_cases s ((s.writeReg r (joinBytes b (loByte (s.reg r)))).respond 0) r with ⟨hp, e⟩ | ⟨hp, e⟩
    · exact .inr (.inr (.inl ⟨r, b, rfl, hp, e⟩))
    · exact .inr (.inl ⟨hp, e⟩)
  | setLo r b =>
    cases h
    rcases onPair_cases s ((s.writeReg r (joinBytes (hiByte (s.reg r)) b)).respond 0) r with ⟨hp, e⟩ | ⟨hp, e⟩
    · exact .inr (.inr (.inr (.inl ⟨r, b, rfl, hp, e⟩)))
    · exact .inr (.inl ⟨hp, e⟩)
  | set r w => cases h; exact .inr (.inr (.inr (.inr (.inl ⟨r, w, rfl, rfl⟩))))
  | value | zero | subtract | halfCarry | carry | read8 => cases h; exact .inl ⟨_, rfl⟩
  | setZero f => cases h; exact .inr (.inr (.inr (.inr (.inr (.inl ⟨.zero, f, rfl, rfl⟩)))))
  | setSubtract f => cases h; exact .inr (.inr (.inr (.inr (.inr (.inl ⟨.subtract, f, rfl, rfl⟩)))))
  | setHalfCarry f => cases h; exact .inr (.inr (.inr (.inr (.inr (.inl ⟨.halfCarry, f, rfl, rfl⟩)))))
  | setCarry f => cases h; exact .inr (.inr (.inr (.inr (.inr (.inl ⟨.carry, f, rfl, rfl⟩)))))
  | write8 a v => cases h; exact .inr (.inr (.inr (.inr (.inr (.inr ⟨a, v, rfl, rfl⟩)))))

/-- The address space after an operation: only a WRITE8 changes a bank index, a store or the Cartridge (R126, R152). -/
theorem exec_addressSpace {i : Instr} {s t : State} (h : exec i s = .next t) :
    (SameBanks s t ∧ (∀ st, t.store st = s.store st) ∧ t.cart = s.cart) ∨
    ∃ a v, i = .write8 a v ∧ t = (s.writeByte a v).respond 0 := by
  rcases exec_cases h with ⟨v, rfl⟩ | ⟨_, rfl⟩ | ⟨r, b, _, _, rfl⟩ | ⟨r, b, _, _, rfl⟩ | ⟨r, w, _, rfl⟩ |
    ⟨x, f, _, rfl⟩ | ⟨a, v, hi, rfl⟩
  · exact .inl (by simp [SameBanks])
  · exact .inl (by simp [SameBanks])
  · exact .inl (by simp [SameBanks])
  · exact .inl (by simp [SameBanks])
  · exact .inl (by simp [SameBanks])
  · exact .inl (by simp [SameBanks, State.writeFlag])
  · exact .inr ⟨a, v, hi, rfl⟩

/-! ## One step seen through one component of the state -/

/-- A component of the state that neither the list of inputs nor the ILLEGAL response touches changes only at the reset
event or in the operation the next input decodes to. -/
theorem exec_of_step_changes {α : Type} {f : State → α} (hin : ∀ s l, f { s with inputs := l } = f s)
    (hill : ∀ s : State, f s.illegalResponse = f s) {s t : State} (h : step s = .next t) (hne : f t ≠ f s) :
    s.nextIsReset ∨ ∃ i u, s.nextOperation = some i ∧ exec i u = .next t ∧ f t ≠ f u := by
  rcases step_cases h with ⟨_, rfl⟩ | ⟨rest, hr, _⟩ | ⟨c, e, rest, _, _, rfl⟩ | ⟨c, i, rest, hc, hd, hx⟩
  · exact absurd rfl hne
  · exact .inl ⟨rest, hr⟩
  · exact absurd ((hill _).trans (hin _ _)) hne
  · refine .inr ⟨i, _, ?_, hx, fun e => hne (e.trans (hin _ _))⟩
    simp [State.nextOperation, hc, hd, Except.toOption]

/-- A bank index that every WRITE8 changes at the select register `r` only, and no other operation changes, has no writer
but that register and the reset event (10_state.md R23). -/
theorem select_of_step_changes_bank {n : Nat} {bank : State → BitVec n} {r : Word} {sel : Byte → BitVec n}
    (hin : ∀ s l, bank { s with inputs := l } = bank s) (hill : ∀ s : State, bank s.illegalResponse = bank s)
    (hsame : ∀ s t, SameBanks s t → bank t = bank s)
    (hw : ∀ s a v, bank ((s.writeByte a v).respond 0) = if a = r then sel v else bank s) {s t : State}
    (h : step s = .next t) (hne : bank t ≠ bank s) : s.nextIsReset ∨ ∃ v, s.nextOperation = some (.write8 r v) := by
  rcases exec_of_step_changes hin hill h hne with hr | ⟨i, u, hi, hx, hne⟩
  · exact .inl hr
  rcases exec_addressSpace hx with ⟨hb, _, _⟩ | ⟨a, v, rfl, rfl⟩
  · exact absurd (hsame u t hb) hne
  · by_cases ha : a = r
    · exact .inr ⟨v, ha ▸ hi⟩
    · exact absurd ((hw u a v).trans (if_neg ha)) hne

/-! ## The invariant, part by part -/

theorem reset_inv : State.reset.Inv where
  af := (afMasked_iff_lowNibble _).mpr rfl
  bank := by decide
  stores := fun st => by cases st <;> rfl

/-- The invariant looks at AF, at the work-RAM bank and at the stores, and at nothing else. -/
theorem State.Inv.of_same {s t : State} (h : s.Inv) (ha : t.af = s.af) (hb : t.wramBank = s.wramBank)
    (hst : ∀ st, t.store st = s.store st) : t.Inv where
  af := by rw [State.afMasked, ha]; exact h.af
  bank := by rw [hb]; exact h.bank
  stores := fun st => by rw [hst]; exact h.stores st

theorem State.Inv.withInputs {s : State} (h : s.Inv) (l : List Input) : ({ s with inputs := l } : State).Inv :=
  h.of_same rfl rfl (by simp)

theorem State.Inv.illegalResponse {s : State} (h : s.Inv) : s.illegalResponse.Inv :=
  h.of_same rfl rfl (by simp)

/-- Every register write keeps AF's low nibble zero: AF's is masked again, the others do not touch AF (R127). -/
theorem afMasked_writeReg {s : State} (h : s.afMasked) (r : Reg) (v : Word) : (s.writeReg r v).afMasked := by
  by_cases hr : r = .af
  · subst hr
    exact afMasked_writeReg_af s v
  · have same : (s.writeReg r v).af = s.af := by simp [State.writeReg, hr]
    rwa [State.afMasked, same]

/-- Every cell an address reaches lies inside its store (20_memory.md R52). -/
theorem lt_size_of_target {a : Word} {vb : BitVec 1} {wb : BitVec 3} {st : Store} {i : Nat}
    (h : target a vb wb = .cell st i) : i < st.size := by
  have hv := vb.isLt
  have hw := wb.isLt
  have ha := a.isLt
  rcases target_eq_cell h with ⟨rfl, _, _, e⟩ | ⟨rfl, _, _, e⟩ | ⟨rfl, _, _, e⟩ | ⟨rfl, _, _, e⟩ | ⟨rfl, _, e⟩ <;>
    simp only [Store.size, Config.vramSize, Config.wramSize, Config.oamSize, Config.highSize] <;> omega

theorem storesWf_writeByte {s : State} (h : s.storesWf) (a : Word) (v : Byte) : (s.writeByte a v).storesWf := by
  rcases writeByte_cases s a v with ⟨_, e⟩ | ⟨_, e⟩ | ⟨st, i, ht, e⟩ | ⟨_, e⟩ <;> rw [e]
  · exact h
  · exact h
  · intro q
    rw [State.store_selectBanks]
    exact State.storesWf_writeCell h (lt_size_of_target ht) q
  · exact h

/-- A WRITE8 never leaves the work-RAM bank at 0 (decision D4, 20_memory.md R58). -/
theorem wramBank_writeByte_ne_zero {s : State} (h : s.wramBank ≠ 0) (a : Word) (v : Byte) :
    (s.writeByte a v).wramBank ≠ 0 := by
  rw [wramBank_writeByte]
  split
  · exact wramBankOfByte_ne_zero v
  · exact h

/-- Every operation keeps AF's low nibble zero, whatever the banks and the stores hold (R13). -/
theorem exec_afMasked {i : Instr} {s t : State} (hs : s.afMasked) (h : exec i s = .next t) : t.afMasked := by
  rcases exec_cases h with ⟨v, rfl⟩ | ⟨_, rfl⟩ | ⟨r, b, _, _, rfl⟩ | ⟨r, b, _, _, rfl⟩ | ⟨r, w, _, rfl⟩ |
    ⟨x, f, _, rfl⟩ | ⟨a, v, _, rfl⟩
  · exact hs
  · exact hs
  · exact afMasked_writeReg hs r _
  · exact afMasked_writeReg hs r _
  · exact afMasked_writeReg hs r w
  · exact afMasked_writeReg hs .af _
  · rwa [State.afMasked, State.af_respond, af_writeByte]

/-- Every operation keeps the invariant. -/
theorem exec_inv {i : Instr} {s t : State} (hs : s.Inv) (h : exec i s = .next t) : t.Inv := by
  have af := exec_afMasked hs.af h
  rcases exec_addressSpace h with ⟨⟨_, hw⟩, hst, _⟩ | ⟨a, v, _, rfl⟩
  · exact ⟨af, hw ▸ hs.bank, fun st => hst st ▸ hs.stores st⟩
  · exact ⟨af, wramBank_writeByte_ne_zero hs.bank a v,
      fun st => State.store_respond _ 0 st ▸ storesWf_writeByte hs.stores a v st⟩

theorem step_afMasked {s t : State} (hs : s.afMasked) (h : step s = .next t) : t.afMasked := by
  rcases step_cases h with ⟨_, rfl⟩ | ⟨rest, _, rfl⟩ | ⟨c, e, rest, _, _, rfl⟩ | ⟨c, i, rest, _, _, hx⟩
  · exact hs
  · exact reset_inv.af
  · exact hs
  · exact exec_afMasked (s := { s with inputs := rest }) hs hx

/-! ## The decoder gives only operations the block has -/

/-- Whatever operation `d` gives is well formed. -/
def GivesWellFormed (d : Except Illegal Instr) : Prop := ∀ i, d = .ok i → i.wellFormed = true

theorem ifClear_givesWellFormed {p : Bool} {j : Instr} (h : j.wellFormed = true) : GivesWellFormed (ifClear p j) := by
  intro i hi
  rwa [← (ifClear_eq_ok hi).2]

theorem selectReg_givesWellFormed {c : Command} {k : Reg → Except Illegal Instr} (h : ∀ r, GivesWellFormed (k r)) :
    GivesWellFormed (selectReg c k) := by
  intro i hi
  obtain ⟨r, _, hk⟩ := selectReg_eq_ok hi
  exact h r i hk

theorem selectPair_givesWellFormed {c : Command} {k : Reg → Except Illegal Instr}
    (h : ∀ r, r.isPair = true → GivesWellFormed (k r)) : GivesWellFormed (selectPair c k) := by
  intro i hi
  obtain ⟨r, _, hp, hk⟩ := selectPair_eq_ok hi
  exact h r hp i hk

theorem selectNone_givesWellFormed {c : Command} {d : Except Illegal Instr} (h : GivesWellFormed d) :
    GivesWellFormed (selectNone c d) := fun i hi => h i (selectNone_eq_ok hi).2

/-- Every operation the decoder gives exists: no word asks for a byte view of PC (30_encoding.md R99). -/
theorem wellFormed_of_decode {c : Command} {i : Instr} (h : decode c = .ok i) : i.wellFormed = true := by
  have given : GivesWellFormed (decode c) := by
    unfold decode
    split
    · exact selectPair_givesWellFormed fun r hp => ifClear_givesWellFormed hp
    · exact selectPair_givesWellFormed fun r hp => ifClear_givesWellFormed hp
    · exact selectReg_givesWellFormed fun r => ifClear_givesWellFormed rfl
    · exact selectPair_givesWellFormed fun r hp => ifClear_givesWellFormed hp
    · exact selectPair_givesWellFormed fun r hp => ifClear_givesWellFormed hp
    · exact selectReg_givesWellFormed fun r => ifClear_givesWellFormed rfl
    iterate 9 exact selectNone_givesWellFormed (ifClear_givesWellFormed rfl)
    · exact selectNone_givesWellFormed fun i hi => by cases hi; rfl
    · exact fun i hi => nomatch hi
  exact given i h

/-! ## Nothing but VALUE PC and SET PC looks at the program counter -/

/-- The write path looks at no register and changes none (43_write8.md R180). -/
theorem writeByte_setReg (s : State) (r : Reg) (x : Word) (a : Word) (v : Byte) :
    (s.setReg r x).writeByte a v = (s.writeByte a v).setReg r x := by
  rcases writeByte_cases s a v with ⟨ht, e⟩ | ⟨ht, e⟩ | ⟨st, i, ht, e⟩ | ⟨ht, e⟩ <;> rw [e]
  · simp only [State.writeByte, State.vramBank_setReg, State.wramBank_setReg, ht]
    cases r <;> rfl
  · simp only [State.writeByte, State.vramBank_setReg, State.wramBank_setReg, ht]
    cases r <;> rfl
  · simp only [State.writeByte, State.vramBank_setReg, State.wramBank_setReg, ht]
    cases r <;> cases st <;> rfl
  · simp only [State.writeByte, State.vramBank_setReg, State.wramBank_setReg, ht]

/-- The program counter is passive (10_state.md R18): with any other value in it an operation does the same. -/
theorem exec_withPc {i : Instr} {s t : State} (w : Word) (hv : i ≠ .value .pc) (hs : ∀ v, i ≠ .set .pc v)
    (h : exec i s = .next t) : exec i { s with pc := w } = .next { t with pc := w } := by
  cases i with
  | hi r | lo r | setHi r b | setLo r b => cases h; cases r <;> rfl
  | value r => cases h; cases r with
    | pc => exact absurd rfl hv
    | af | bc | de | hl | sp => rfl
  | set r v => cases h; cases r with
    | pc => exact absurd rfl (hs v)
    | af | bc | de | hl | sp => rfl
  | zero | subtract | halfCarry | carry | setZero | setSubtract | setHalfCarry | setCarry => cases h; rfl
  | read8 a => cases h; rfl
  | write8 a v =>
    cases h
    exact congrArg (fun u : State => Host.Outcome.next (u.respond 0)) (writeByte_setReg s .pc w a v)

/-! ## Power-up -/

/-- High memory after reset reads as the table of power-up bytes, 0x00 where it lists nothing (10_state.md R37). -/
theorem readByte_reset_high {a : Word} (h : 0xFF00 ≤ a.toNat) :
    State.reset.readByte a = (highResetTable.lookup (a.toNat - 0xFF00)).getD 0 := by
  have reached : target a State.reset.vramBank State.reset.wramBank = .cell .high (a.toNat - 0xFF00) := by
    rcases target_cases a State.reset.vramBank State.reset.wramBank with
      ⟨_, b⟩ | ⟨_, b⟩ | ⟨_, b⟩ | ⟨_, b⟩ | ⟨_, b⟩ | ⟨_, b⟩ | ⟨_, b⟩ | ⟨_, b⟩ | ⟨e, _⟩
    case inr.inr.inr.inr.inr.inr.inr.inr => exact e
    all_goals omega
  rw [readByte_of_cell reached]
  simp [State.readCell, State.reset, Memory.read, Store.resetByte]

end Sys2Proof.Machine
end

section
/-! SUPPORT. The statements about the state (10_state.md), settled. -/

namespace Sys2Proof.Machine

/-- Settles O15: from `exec_inv` for a legal word; the other three kinds of step leave what the invariant looks at or
put it to its power-up values. -/
theorem stepKeepsTheInvariant : Obligations.StepKeepsTheInvariant := by
  unfold Obligations.StepKeepsTheInvariant
  intro s t hs h
  rcases step_cases h with ⟨_, rfl⟩ | ⟨rest, _, rfl⟩ | ⟨c, e, rest, _, _, rfl⟩ | ⟨c, i, rest, _, _, hx⟩
  · exact hs
  · exact reset_inv.of_same rfl rfl fun st => by cases st <;> rfl
  · exact (hs.withInputs rest).illegalResponse
  · exact exec_inv (hs.withInputs rest) hx

/-- Settles O22: the decoder gives well-formed operations only, and a byte view of PC is none. -/
theorem byteViewsOfPcAreIllegal : Obligations.ByteViewsOfPcAreIllegal := by
  unfold Obligations.ByteViewsOfPcAreIllegal
  constructor
  · intro c i h
    have wf := wellFormed_of_decode h
    refine ⟨?_, ?_, fun b => ⟨?_, ?_⟩⟩ <;> (rintro rfl; cases wf)
  · exact fun b s => ⟨rfl, rfl, rfl, rfl⟩

/-- Settles O23: each mutation of AF is a masked write, and `step_afMasked` covers every step. -/
theorem afLowNibbleIsZeroAfterEveryMutation : Obligations.AfLowNibbleIsZeroAfterEveryMutation := by
  unfold Obligations.AfLowNibbleIsZeroAfterEveryMutation
  refine ⟨by decide, fun s t w b x f h => ?_⟩
  rw [← afMasked_iff_lowNibble] at h ⊢
  rcases h with h | h | h | h | ⟨hs, h⟩
  · cases h; exact afMasked_writeReg_af s w
  · cases h; exact afMasked_writeReg_af s _
  · cases h; exact afMasked_writeReg_af s _
  · rw [exec_flagSetter] at h; cases h; exact afMasked_writeReg_af s _
  · exact step_afMasked hs h

/-- Settles O24: the mask keeps every bit of the accumulator, and under R13 every bit the flags byte has. -/
theorem accumulatorAndFlagsByteAreDistinct : Obligations.AccumulatorAndFlagsByteAreDistinct := by
  unfold Obligations.AccumulatorAndFlagsByteAreDistinct
  intro s t b hs
  constructor
  · intro h
    cases h
    refine ⟨(hiByte_and_afMask _).trans (hiByte_joinBytes _ _), ?_⟩
    calc loByte (joinBytes b (loByte s.af) &&& Config.afMask)
        = loByte s.af &&& 0xF0 := by rw [loByte_and_afMask, loByte_joinBytes]
      _ = loByte s.af := by rw [← loByte_and_afMask, hs.af_and_afMask]
  · intro h
    cases h
    refine ⟨(hiByte_and_afMask _).trans (hiByte_joinBytes _ _), ?_⟩
    calc loByte (joinBytes (hiByte s.af) b &&& Config.afMask)
        = b &&& 0xF0 := by rw [loByte_and_afMask, loByte_joinBytes]

/-- Settles O37, bit by bit: bits 7 to 4 are the flags, bits 3 to 0 are zero by R13. -/
theorem flagsByteIsTheFourFlags : Obligations.FlagsByteIsTheFourFlags := by
  unfold Obligations.FlagsByteIsTheFourFlags
  intro s l z n h c hs hl hz hn hh hc
  cases hl; cases hz; cases hn; cases hh; cases hc
  change zext16 (loByte s.af) = boolResponse (s.flag .zero) <<< 7 ||| boolResponse (s.flag .subtract) <<< 6 |||
    boolResponse (s.flag .halfCarry) <<< 5 ||| boolResponse (s.flag .carry) <<< 4
  apply BitVec.eq_of_getLsbD_eq
  intro k hk
  simp only [getLsbD_zext16, getLsbD_loByte, BitVec.getLsbD_or, BitVec.getLsbD_shiftLeft, getLsbD_boolResponse,
    State.flag, State.reg_af, flagBit]
  by_cases h4 : k < 4
  · rw [(afMasked_iff s).mp hs k h4]
    simp [show k < 7 by omega, show k < 6 by omega, show k < 5 by omega, h4]
  · have above : 4 ≤ k := by omega
    interval_cases k <;> simp

/-- Settles O38: of the operations, SETHI writes the accumulator only and a setter its own flag only. -/
theorem flagsChangeOnlyByTheirWriters : Obligations.FlagsChangeOnlyByTheirWriters := by
  unfold Obligations.FlagsChangeOnlyByTheirWriters
  intro s t x h hne
  rcases exec_of_step_changes (f := (State.flag · x)) (fun s l => by simp [State.flag]) (fun s => by simp [State.flag])
    h hne with hr | ⟨i, u, hi, hx, hne⟩
  · exact .inl hr
  rcases exec_cases hx with ⟨v, rfl⟩ | ⟨_, rfl⟩ | ⟨r, b, _, _, rfl⟩ | ⟨r, b, rfl, _, rfl⟩ | ⟨r, w, rfl, rfl⟩ |
    ⟨y, f, rfl, rfl⟩ | ⟨a, v, _, rfl⟩
  · exact absurd rfl hne
  · exact absurd rfl hne
  · exact absurd (flag_writeReg_hiByte u r b x) hne
  · by_cases hr : r = .af
    · exact .inr (.inr (.inl ⟨b, hr ▸ hi⟩))
    · exact absurd (flag_writeReg_of_ne hr u _ x) hne
  · by_cases hr : r = .af
    · exact .inr (.inr (.inr ⟨w, hr ▸ hi⟩))
    · exact absurd (flag_writeReg_of_ne hr u _ x) hne
  · by_cases hy : x = y
    · exact .inr (.inl ⟨f, hy ▸ hi⟩)
    · exact absurd ((flag_writeFlag u y x f).trans (if_neg hy)) hne
  · exact absurd (flag_writeByte u a v x) hne

/-- Settles O39: SETHI and SETLO take pairs only, so of all writes only SET reaches the program counter. -/
theorem pcChangesOnlyBySetPcAndReset : Obligations.PcChangesOnlyBySetPcAndReset := by
  unfold Obligations.PcChangesOnlyBySetPcAndReset
  refine ⟨fun s t h hne => ?_, fun w s t h => ?_, fun i s t w hv hs h => exec_withPc w hv hs h⟩
  · rcases exec_of_step_changes (f := State.pc) (fun _ _ => rfl) (fun _ => rfl) h hne with hr | ⟨i, u, hi, hx, hne⟩
    · exact .inl hr
    rcases exec_cases hx with ⟨v, rfl⟩ | ⟨_, rfl⟩ | ⟨r, b, _, hp, rfl⟩ | ⟨r, b, _, hp, rfl⟩ | ⟨r, w, rfl, rfl⟩ |
      ⟨y, f, rfl, rfl⟩ | ⟨a, v, _, rfl⟩
    · exact absurd rfl hne
    · exact absurd rfl hne
    · exact absurd (pc_writeReg_of_isPair hp u _) hne
    · exact absurd (pc_writeReg_of_isPair hp u _) hne
    · cases r with
      | pc => exact .inr ⟨w, hi, BitVec.and_allOnes⟩
      | af | bc | de | hl | sp => exact absurd rfl hne
    · exact absurd rfl hne
    · exact absurd (pc_writeByte u a v) hne
  · cases h
    change Host.Outcome.next (State.respond _ (w &&& regMask .pc)) = _
    rw [and_regMask_of_ne (by decide)]
    rfl

/-- Settles O41: `writeByte` is the only write that touches a bank index, and only at that bank's own register. -/
theorem banksChangeOnlyBySelectWrites : Obligations.BanksChangeOnlyBySelectWrites := by
  unfold Obligations.BanksChangeOnlyBySelectWrites
  exact fun s t h =>
    ⟨select_of_step_changes_bank (fun _ _ => rfl) (fun _ => rfl) (fun _ _ hb => hb.1) vramBank_writeByte h,
      select_of_step_changes_bank (fun _ _ => rfl) (fun _ => rfl) (fun _ _ hb => hb.2) wramBank_writeByte h⟩

/-- Settles O8: with no input to take, `step` answers the same state. -/
theorem idleBlockStaysAsItIs : Obligations.IdleBlockStaysAsItIs := by
  unfold Obligations.IdleBlockStaysAsItIs
  exact fun s h => step_of_no_input h

/-- Settles O11: the power-up values, read off `State.reset`. -/
theorem resetRegisterPairsAreZero : Obligations.ResetRegisterPairsAreZero := by
  unfold Obligations.ResetRegisterPairsAreZero
  exact ⟨rfl, rfl, rfl, rfl, rfl, by decide, by decide, fun x => by cases x <;> decide⟩

/-- Settles O12: a read of high memory after reset is a lookup in the model's table, which lists each index once. -/
theorem resetHighMemoryIsTheTable : Obligations.ResetHighMemoryIsTheTable := by
  unfold Obligations.ResetHighMemoryIsTheTable
  refine ⟨by decide, by decide, ?_, ?_⟩
  · have listed : ∀ p ∈ highResetTable, highResetTable.lookup p.1 = some p.2 := by decide
    intro a k v hkv ha
    rw [readByte_reset_high (by omega), show a.toNat - 0xFF00 = k by omega, listed (k, v) hkv]
    rfl
  · intro a ha unlisted
    have none_listed : highResetTable.lookup (a.toNat - 0xFF00) = none := by
      refine List.lookup_eq_none_iff.mpr fun p hp => bne_iff_ne.mpr fun hk => ?_
      exact unlisted p.2 (hk ▸ hp)
    rw [readByte_reset_high ha, none_listed]
    rfl

/-- Settles O13: the decided values, read off `State.reset`; nothing is listed in the three stores. -/
theorem resetDecidedValues : Obligations.ResetDecidedValues := by
  unfold Obligations.ResetDecidedValues
  exact ⟨rfl, rfl, rfl, rfl, fun i => ⟨rfl, rfl, rfl⟩⟩

/-- Settles O14: empty stores are canonical. -/
theorem resetMeetsTheInvariant : Obligations.ResetMeetsTheInvariant := reset_inv

end Sys2Proof.Machine
end

section
/-! SUPPORT. The address space (20_memory.md): the regions as intervals, the offsets as numbers, the cell an access
reaches, and what one input does to the cells. The proofs about memory rest on this layer. -/

namespace Sys2Proof.Machine

/-! ## The regions are intervals -/

/-- The last address of a region (20_memory.md R41); `region_eq_iff` ties it to the decoder. -/
def regionLast : Region → Nat
  | .rom => 0x7FFF
  | .vram => 0x9FFF
  | .xram => 0xBFFF
  | .wram0 => 0xCFFF
  | .wramx => 0xDFFF
  | .echo => 0xFDFF
  | .oam => 0xFE9F
  | .unusable => 0xFEFF
  | .high => 0xFFFF

theorem toNat_within_region (a : Word) : regionFirst (region a) ≤ a.toNat ∧ a.toNat ≤ regionLast (region a) := by
  have top := a.isLt
  rcases region_bounds a with ⟨h, b⟩ | ⟨h, b⟩ | ⟨h, b⟩ | ⟨h, b⟩ | ⟨h, b⟩ | ⟨h, b⟩ | ⟨h, b⟩ | ⟨h, b⟩ | ⟨h, b⟩ <;>
    simp only [h, regionFirst, regionLast] <;> omega

theorem regions_apart {r q : Region} (h : r ≠ q) : regionLast r < regionFirst q ∨ regionLast q < regionFirst r := by
  revert h
  cases r <;> cases q <;> decide

/-- The decoder by bounds, for every region at once (20_memory.md R41, R42). -/
theorem region_eq_iff (a : Word) (r : Region) : region a = r ↔ regionFirst r ≤ a.toNat ∧ a.toNat ≤ regionLast r := by
  have own := toNat_within_region a
  constructor
  · rintro rfl
    exact own
  · intro bounds
    by_contra other
    have apart := regions_apart other
    omega

/-! ## Address bits as numbers -/

theorem extractLsb'_eq_iff_toNat {w : Nat} (x : BitVec w) (k n : Nat) (c : BitVec n) :
    x.extractLsb' k n = c ↔ x.toNat / 2 ^ k % 2 ^ n = c.toNat := by
  rw [← BitVec.toNat_inj, BitVec.extractLsb'_toNat, Nat.shiftRight_eq_div_pow]

theorem toNat_lowBits {w : Nat} (x : BitVec w) (n : Nat) : (x.extractLsb' 0 n).toNat = x.toNat % 2 ^ n := by
  rw [BitVec.extractLsb'_toNat, Nat.shiftRight_zero]

theorem toNat_append_eq_add {m n : Nat} (x : BitVec m) (y : BitVec n) :
    (x ++ y).toNat = x.toNat * 2 ^ n + y.toNat := by
  rw [BitVec.toNat_append, ← Nat.shiftLeft_add_eq_or_of_lt y.isLt, Nat.shiftLeft_eq]

/-- Bit 15 is clear in the lower half of the address space. -/
theorem getLsbD_15_eq_false_iff (a : Word) : a.getLsbD 15 = false ↔ a.toNat ≤ 0x7FFF := by
  change a.msb = false ↔ _
  rw [BitVec.msb_eq_false_iff_two_mul_lt]
  omega

theorem toNat_vramBankOfByte (v : Byte) : (vramBankOfByte v).toNat = v.toNat % 2 := toNat_lowBits v 1

theorem toNat_wramBankOfByte (v : Byte) :
    (wramBankOfByte v).toNat = if v.toNat % 8 = 0 then 1 else v.toNat % 8 := by
  have low := toNat_lowBits v 3
  have zero_iff : v.extractLsb' 0 3 = 0 ↔ v.toNat % 8 = 0 := by
    rw [← BitVec.toNat_inj, low]
    rfl
  simp only [wramBankOfByte, zero_iff]
  split
  · rfl
  · exact low

/-! ## The offsets, each against its rule -/

section
variable {a : Word} {vb : BitVec 1} {wb : BitVec 3}

/-- `VramOff` (20_memory.md R47). -/
theorem vramOff_formula (h : region a = .vram) :
    0x8000 ≤ a.toNat ∧ (vramOff a vb : Int) = (a.toNat : Int) - 0x8000 + (vb.toNat : Int) * 0x2000 ∧
      vramOff a vb = (vb ++ a.extractLsb' 0 13).toNat ∧ vramOff a vb ≤ 0x3FFF := by
  obtain ⟨lo, hi⟩ := (region_eq_iff a .vram).mp h
  have bank := vb.isLt
  rw [toNat_append_eq_add, toNat_lowBits]
  simp only [vramOff, regionFirst, regionLast, Config.vramBankSize] at lo hi ⊢
  omega

/-- `Wram0Off` (20_memory.md R48). -/
theorem wram0Off_formula (h : region a = .wram0) :
    0xC000 ≤ a.toNat ∧ (wram0Off a : Int) = (a.toNat : Int) - 0xC000 ∧
      wram0Off a = (a.extractLsb' 0 12).toNat ∧ wram0Off a ≤ 0x0FFF := by
  obtain ⟨lo, hi⟩ := (region_eq_iff a .wram0).mp h
  rw [toNat_lowBits]
  simp only [wram0Off, regionFirst, regionLast] at lo hi ⊢
  omega

/-- `WramBankedOff` (20_memory.md R49); the lower bound needs a bank other than 0 (R22). -/
theorem wramBankedOff_formula (h : region a = .wramx) :
    0xC000 ≤ a.toNat ∧ (wramBankedOff a wb : Int) = ((a.toNat : Int) - 0xC000) + (wb.toNat : Int) * 0x1000 ∧
      wramBankedOff a wb = (wb.toNat + 1) * 0x1000 + (a.extractLsb' 0 12).toNat ∧
      wramBankedOff a wb ≤ 0x8FFF ∧ (wb ≠ 0 → 0x2000 ≤ wramBankedOff a wb) := by
  obtain ⟨lo, hi⟩ := (region_eq_iff a .wramx).mp h
  have bank := wb.isLt
  rw [toNat_lowBits]
  simp only [wramBankedOff, regionFirst, regionLast, Config.wramBankSize] at lo hi ⊢
  refine ⟨by omega, by omega, by omega, by omega, fun hw => ?_⟩
  have positive := BitVec.toNat_pos_of_ne_zero hw
  omega

/-- `OamOff` (20_memory.md R50). -/
theorem oamOff_formula (h : region a = .oam) :
    0xFE00 ≤ a.toNat ∧ (oamOff a : Int) = (a.toNat : Int) - 0xFE00 ∧
      oamOff a = (a.extractLsb' 0 8).toNat ∧ oamOff a ≤ 0x9F := by
  obtain ⟨lo, hi⟩ := (region_eq_iff a .oam).mp h
  rw [toNat_lowBits]
  simp only [oamOff, regionFirst, regionLast] at lo hi ⊢
  omega

/-- `HighOff` (20_memory.md R51). -/
theorem highOff_formula (h : region a = .high) :
    0xFF00 ≤ a.toNat ∧ (highOff a : Int) = (a.toNat : Int) - 0xFF00 ∧
      highOff a = (a.extractLsb' 0 8).toNat ∧ highOff a ≤ 0xFF := by
  obtain ⟨lo, hi⟩ := (region_eq_iff a .high).mp h
  rw [toNat_lowBits]
  simp only [highOff, regionFirst, regionLast] at lo hi ⊢
  omega

/-! ## The cell an address reaches -/

theorem cell_ne_cell {st : Store} {i j : Nat} (h : i ≠ j) : Target.cell st i ≠ .cell st j :=
  fun e => h (Target.cell.inj e).2

theorem target_of_vram (h : region a = .vram) : target a vb wb = .cell .vram (vramOff a vb) := by simp only [target, h]

theorem target_of_wram0 (h : region a = .wram0) : target a vb wb = .cell .wram (wram0Off a) := by simp only [target, h]

theorem target_of_wramx (h : region a = .wramx) : target a vb wb = .cell .wram (wramBankedOff a wb) := by
  simp only [target, h]

/-- The echo and the unusable region have no store, whatever the banks (20_memory.md R67, R68). -/
theorem target_eq_noStore
    (h : (0xE000 ≤ a.toNat ∧ a.toNat ≤ 0xFDFF) ∨ (0xFEA0 ≤ a.toNat ∧ a.toNat ≤ 0xFEFF)) :
    target a vb wb = .noStore := by
  rcases h with h | h
  · simp only [target, (region_eq_iff a .echo).mpr h]
  · simp only [target, (region_eq_iff a .unusable).mpr h]

/-- A cell of VRAM an address reaches lies in the half the bank selects (20_memory.md R47). -/
theorem vramBank_of_target {i : Nat} (h : target a vb wb = .cell .vram i) : i / 0x2000 = vb.toNat := by
  rcases target_eq_cell h with ⟨_, lo, hi, e⟩ | ⟨st, _⟩ | ⟨st, _⟩ | ⟨st, _⟩ | ⟨st, _⟩
  · omega
  all_goals cases st

/-- A cell of WRAM an address reaches lies in the fixed part or in the chunk the bank selects (20_memory.md R48, R49). -/
theorem wramBank_of_target {i : Nat} (h : target a vb wb = .cell .wram i) :
    i < 0x1000 ∨ i / 0x1000 = wb.toNat + 1 := by
  rcases target_eq_cell h with ⟨st, _⟩ | ⟨_, lo, hi, e⟩ | ⟨_, lo, hi, e⟩ | ⟨st, _⟩ | ⟨st, _⟩
  · cases st
  · omega
  · omega
  all_goals cases st

/-- Video banks are disjoint: the offset tells the bank (20_memory.md R54). -/
theorem vramOff_div_bankSize (h : region a = .vram) : vramOff a vb / 0x2000 = vb.toNat :=
  vramBank_of_target (target_of_vram (wb := 0) h)

theorem wram0Off_lt_bankSize (h : region a = .wram0) : wram0Off a < 0x1000 := by
  obtain ⟨_, _, _, bound⟩ := wram0Off_formula h
  omega

/-- Work-RAM banks are disjoint: the offset tells the bank, and lies above the fixed part (20_memory.md R54). -/
theorem wramBankedOff_div_bankSize (h : region a = .wramx) : wramBankedOff a wb / 0x1000 = wb.toNat + 1 := by
  have low := (a.extractLsb' 0 12).isLt
  obtain ⟨_, _, sum, _, _⟩ := wramBankedOff_formula (wb := wb) h
  omega

theorem vramOff_ne_of_bank_ne {a' : Word} {vb' : BitVec 1} (h : region a = .vram) (h' : region a' = .vram)
    (hb : vb ≠ vb') : vramOff a vb ≠ vramOff a' vb' := fun e =>
  hb (BitVec.eq_of_toNat_eq (by rw [← vramOff_div_bankSize h, e, vramOff_div_bankSize h']))

theorem wramBankedOff_ne_of_bank_ne {a' : Word} {wb' : BitVec 3} (h : region a = .wramx) (h' : region a' = .wramx)
    (hb : wb ≠ wb') : wramBankedOff a wb ≠ wramBankedOff a' wb' := fun e =>
  hb (BitVec.eq_of_toNat_eq (Nat.succ.inj (by
    rw [Nat.succ_eq_add_one, ← wramBankedOff_div_bankSize h, e, wramBankedOff_div_bankSize h'])))

theorem wram0Off_ne_wramBankedOff {a' : Word} (h : region a = .wram0) (h' : region a' = .wramx) :
    wram0Off a ≠ wramBankedOff a' wb := by
  have fixed := wram0Off_lt_bankSize h
  have banked := wramBankedOff_div_bankSize (wb := wb) h'
  omega

end

/-! ## READ8 and WRITE8 -/

theorem exec_read8 (a : Word) (s : State) : exec (.read8 a) s = .next (s.respond (zext16 (s.readByte a))) := rfl

theorem exec_write8 (a : Word) (v : Byte) (s : State) : exec (.write8 a v) s = .next ((s.writeByte a v).respond 0) := rfl

/-- A cell that the address does not reach changes nothing of what the address reads as. -/
theorem readByte_writeCell_ne {s : State} {a : Word} {v : Byte} {st : Store} {i : Nat}
    (h : target a s.vramBank s.wramBank ≠ .cell st i) : (s.writeCell st i v).readByte a = s.readByte a := by
  simp only [State.readByte, State.vramBank_writeCell, State.wramBank_writeCell, State.cart_writeCell]
  split
  · rfl
  · rfl
  · rename_i q j reached
    exact State.readCell_writeCell_ne fun ⟨hq, hj⟩ => h (by rw [reached, hq, hj])
  · rfl

/-- Both select registers lie in high memory, so a write below it writes its cell and nothing else. -/
theorem writeByte_of_cell_below_high {s : State} {a : Word} {v : Byte} {st : Store} {i : Nat}
    (h : target a s.vramBank s.wramBank = .cell st i) (low : a.toNat < 0xFF00) :
    s.writeByte a v = s.writeCell st i v := by
  rw [writeByte_of_cell h]
  apply selectBanks_of_ne
  · rintro rfl
    exact absurd low (by decide)
  · rintro rfl
    exact absurd low (by decide)

/-- Two states that agree on the cell an address reaches in both read alike there, whatever else differs. -/
theorem readByte_eq_of_same_cell {s t : State} {a : Word} {st : Store} {i : Nat}
    (hs : target a s.vramBank s.wramBank = .cell st i) (ht : target a t.vramBank t.wramBank = .cell st i)
    (cell : t.readCell st i = s.readCell st i) : t.readByte a = s.readByte a := by
  rw [readByte_of_cell hs, readByte_of_cell ht, cell]

theorem readCell_congr {s t : State} {st : Store} (h : t.store st = s.store st) (i : Nat) :
    t.readCell st i = s.readCell st i := by simp only [State.readCell, h]

/-- The bank indices a WRITE8 leaves (20_memory.md R57, R58). -/
theorem banks_of_write8 {s t : State} {a : Word} {v : Byte} (h : exec (.write8 a v) s = .next t) :
    t.vramBank = (if a = Config.vbkAddr then vramBankOfByte v else s.vramBank) ∧
      t.wramBank = (if a = Config.svbkAddr then wramBankOfByte v else s.wramBank) := by
  rw [exec_write8] at h
  cases h
  exact ⟨vramBank_writeByte s a v, wramBank_writeByte s a v⟩

theorem readCell_of_write8_ne {s t : State} {a : Word} {v : Byte} {st : Store} {i : Nat}
    (h : exec (.write8 a v) s = .next t) (other : target a s.vramBank s.wramBank ≠ .cell st i) :
    t.readCell st i = s.readCell st i := by
  rw [exec_write8] at h
  cases h
  exact readCell_writeByte_ne other

/-- An address that reaches one cell under all banks reads as the byte written to it, even where the write selects a
bank. -/
theorem readByte_of_write8_same {s t : State} {a : Word} {v : Byte} {st : Store} {i : Nat}
    (fixed : ∀ vb wb, target a vb wb = .cell st i) (h : exec (.write8 a v) s = .next t) (hs : s.storesWf) :
    t.readByte a = v := by
  rw [exec_write8] at h
  cases h
  rw [readByte_of_cell (fixed _ _)]
  exact readCell_writeByte_same hs (fixed _ _)

/-- The access right after a WRITE8 to another cell: it goes to the cell under the banks that the write left in force
(20_memory.md R57, R58, 70_reset_and_hazards.md R226). -/
theorem access_after_write8 {s t : State} {r a : Word} {v : Byte} {st : Store} {i : Nat}
    (h : exec (.write8 r v) s = .next t) (other : target r s.vramBank s.wramBank ≠ .cell st i)
    (reached : target a t.vramBank t.wramBank = .cell st i) (low : a.toNat < 0xFF00) :
    exec (.read8 a) t = .next { t with rsp := (s.readCell st i).setWidth 16, ill := false } ∧
      ∀ u : Byte, exec (.write8 a u) t = .next ((t.writeCell st i u).respond 0) := by
  constructor
  · rw [exec_read8, readByte_of_cell reached, readCell_of_write8_ne h other]
    rfl
  · intro u
    rw [exec_write8, writeByte_of_cell_below_high reached low]

/-! ## The cells after one input -/

theorem exec_total (i : Instr) (s : State) : ∃ t, exec i s = .next t := by cases i <;> exact ⟨_, rfl⟩

/-- No operation touches what is still to be presented. -/
theorem exec_inputs {i : Instr} {s t : State} (h : exec i s = .next t) : t.inputs = s.inputs := by
  rcases exec_cases h with ⟨v, rfl⟩ | ⟨_, rfl⟩ | ⟨r, b, _, _, rfl⟩ | ⟨r, b, _, _, rfl⟩ | ⟨r, w, _, rfl⟩ |
    ⟨x, f, _, rfl⟩ | ⟨a, v, _, rfl⟩
  · rfl
  · rfl
  · simp
  · simp
  · simp
  · simp [State.writeFlag]
  · simp

section
variable {st : Store} {i : Nat} {vb : BitVec 1} {wb : BitVec 3} {b : Byte} {c : Command} {rest : List Input}

theorem cellAfter_illegal {e : Illegal} (h : decode c = .error e) :
    cellAfter st i vb wb b (.command c :: rest) = cellAfter st i vb wb b rest := by
  simp only [cellAfter, h]

theorem cellAfter_write8 {a : Word} {v : Byte} (h : decode c = .ok (.write8 a v)) :
    cellAfter st i vb wb b (.command c :: rest) =
      cellAfter st i (if a = Config.vbkAddr then vramBankOfByte v else vb)
        (if a = Config.svbkAddr then wramBankOfByte v else wb) (if target a vb wb = .cell st i then v else b) rest := by
  simp only [cellAfter, h]

theorem cellAfter_of_not_write8 {o : Instr} (h : decode c = .ok o) (other : ∀ a v, o ≠ .write8 a v) :
    cellAfter st i vb wb b (.command c :: rest) = cellAfter st i vb wb b rest := by
  cases o with
  | write8 a v => exact absurd rfl (other a v)
  | _ => simp only [cellAfter, h]

end

/-- What the reference of R71 gives for a cell from here on: under the banks and with the byte the state holds. -/
def State.cellAfterInputs (s : State) (st : Store) (i : Nat) (l : List Input) : Byte :=
  cellAfter st i s.vramBank s.wramBank (s.readCell st i) l

/-- The reference looks at the banks and the cell and at nothing else. -/
theorem cellAfterInputs_congr {s t : State} {st : Store} (banks : SameBanks s t) (store : t.store st = s.store st)
    (i : Nat) (l : List Input) : t.cellAfterInputs st i l = s.cellAfterInputs st i l := by
  obtain ⟨hv, hw⟩ := banks
  simp only [State.cellAfterInputs, hv, hw, readCell_congr store]

/-- The cell a WRITE8 reaches takes the byte, every other cell stays (20_memory.md R53, 43_write8.md R191). -/
theorem readCell_writeByte {s : State} (h : s.storesWf) (a : Word) (v : Byte) (st : Store) (i : Nat) :
    (s.writeByte a v).readCell st i =
      if target a s.vramBank s.wramBank = .cell st i then v else s.readCell st i := by
  split
  · exact readCell_writeByte_same h ‹_›
  · exact readCell_writeByte_ne ‹_›

/-- One legal command moves each cell as the reference says. -/
theorem exec_cellAfterInputs {c : Command} {o : Instr} {s t : State} (hs : s.storesWf) (hd : decode c = .ok o)
    (h : exec o s = .next t) (st : Store) (i : Nat) (rest : List Input) :
    t.cellAfterInputs st i rest = s.cellAfterInputs st i (.command c :: rest) := by
  by_cases hw : ∃ a v, o = .write8 a v
  · obtain ⟨a, v, rfl⟩ := hw
    rw [exec_write8] at h
    cases h
    simp only [State.cellAfterInputs, cellAfter_write8 hd, State.vramBank_respond, State.wramBank_respond,
      State.readCell_respond, vramBank_writeByte, wramBank_writeByte, readCell_writeByte hs]
  · have other : ∀ a v, o ≠ .write8 a v := fun a v e => hw ⟨a, v, e⟩
    rw [State.cellAfterInputs, State.cellAfterInputs, cellAfter_of_not_write8 hd other]
    rcases exec_addressSpace h with ⟨banks, stores, _⟩ | ⟨a, v, e, _⟩
    · exact cellAfterInputs_congr banks (stores st) i rest
    · exact absurd e (other a v)

/-- The block answers the next input, whatever it is, and each cell moves as the reference says. -/
theorem step_cellAfterInputs {s : State} {x : Input} {rest : List Input} (hs : s.Inv) (hx : s.inputs = x :: rest) :
    ∃ t, step s = .next t ∧ t.inputs = rest ∧
      ∀ st i, t.cellAfterInputs st i rest = s.cellAfterInputs st i (x :: rest) := by
  have taken : s.takeInput = some (x, { s with inputs := rest }) := by simp only [State.takeInput, hx]
  cases x with
  | reset => exact ⟨_, by simp only [step, taken]; rfl, rfl, fun st i => by cases st <;> rfl⟩
  | command c =>
    cases hd : decode c with
    | error e =>
      refine ⟨_, by simp only [step, taken, hd]; rfl, rfl, fun st i => ?_⟩
      rw [State.cellAfterInputs, State.cellAfterInputs, cellAfter_illegal hd]
      exact cellAfterInputs_congr ⟨rfl, rfl⟩ (by simp) i rest
    | ok o =>
      obtain ⟨t, ht⟩ := exec_total o { s with inputs := rest }
      refine ⟨t, by simp only [step, taken, hd]; exact ht, exec_inputs ht, fun st i => ?_⟩
      rw [exec_cellAfterInputs (hs.withInputs rest).stores hd ht]
      exact cellAfterInputs_congr ⟨rfl, rfl⟩ (by simp) i _

end Sys2Proof.Machine
end

section
/-! SUPPORT. The statements about memory (20_memory.md), settled. -/

namespace Sys2Proof.Machine

/-- Settles O45: `region_eq_iff` at each region; the address space itself gives ROM's lower bound and HIGH's upper. -/
theorem regionsPartitionTheAddresses : Obligations.RegionsPartitionTheAddresses := by
  unfold Obligations.RegionsPartitionTheAddresses
  intro a
  have top : a.toNat ≤ 0xFFFF := Nat.le_of_lt_succ a.isLt
  refine ⟨?_, region_eq_iff a .vram, region_eq_iff a .xram, region_eq_iff a .wram0, region_eq_iff a .wramx,
    region_eq_iff a .echo, region_eq_iff a .oam, region_eq_iff a .unusable, ?_⟩
  · exact (region_eq_iff a .rom).trans (and_iff_right (Nat.zero_le _))
  · exact (region_eq_iff a .high).trans (and_iff_left top)

/-- Settles O46: a field of the high address bits is a quotient of the address, so each test is an interval. -/
theorem regionsDecodeByHighAddressBits : Obligations.RegionsDecodeByHighAddressBits := by
  unfold Obligations.RegionsDecodeByHighAddressBits
  intro a
  have top := a.isLt
  simp only [getLsbD_15_eq_false_iff, extractLsb'_eq_iff_toNat, BitVec.le_def, BitVec.lt_def, toNat_lowBits, region_eq_iff,
    regionFirst, regionLast, ne_eq, BitVec.ofNat_eq_ofNat, BitVec.toNat_ofNat]
  refine ⟨?_, ?_, ?_, ?_, ?_, ?_, ?_, ?_, ?_⟩ <;> omega

/-- Settles O47: one formula per offset. -/
theorem offsetsAreBitFields : Obligations.OffsetsAreBitFields := by
  unfold Obligations.OffsetsAreBitFields
  exact fun a vb wb => ⟨vramOff_formula, wram0Off_formula, wramBankedOff_formula, oamOff_formula, highOff_formula⟩

/-- Settles O48: a bank other than 0 selects a chunk above the hole. -/
theorem reachedCellsLieInTheirStores : Obligations.ReachedCellsLieInTheirStores := by
  unfold Obligations.ReachedCellsLieInTheirStores
  intro a vb wb st i h
  refine ⟨lt_size_of_target h, fun hw hst => ?_⟩
  subst hst
  have pos := BitVec.toNat_pos_of_ne_zero hw
  rcases wramBank_of_target h with fixed | banked
  · exact .inl fixed
  · exact .inr (by omega)

/-- Settles O50: the offset tells the bank, so a cell of another bank, or of the fixed part, is not the one written. -/
theorem banksAreIndependentStorage : Obligations.BanksAreIndependentStorage := by
  unfold Obligations.BanksAreIndependentStorage
  refine ⟨fun a a' vb vb' => vramOff_ne_of_bank_ne, fun a a' wb wb' => wramBankedOff_ne_of_bank_ne,
    fun a a' wb => wram0Off_ne_wramBankedOff, fun a v s t vb ha hb h => ?_, fun a v s t wb ha hb h => ?_,
    fun a a' v s t ha ha' h => ?_⟩
  · have other : target a s.vramBank s.wramBank ≠ .cell .vram (vramOff a vb) := by
      rw [target_of_vram ha]
      exact cell_ne_cell (vramOff_ne_of_bank_ne ha ha hb.symm)
    have kept := readCell_of_write8_ne h other
    exact readByte_eq_of_same_cell (target_of_vram ha) (target_of_vram ha) kept
  · have other : target a s.vramBank s.wramBank ≠ .cell .wram (wramBankedOff a wb) := by
      rw [target_of_wramx ha]
      exact cell_ne_cell (wramBankedOff_ne_of_bank_ne ha ha hb.symm)
    have kept := readCell_of_write8_ne h other
    exact readByte_eq_of_same_cell (target_of_wramx ha) (target_of_wramx ha) kept
  · have other : target a s.vramBank s.wramBank ≠ .cell .wram (wram0Off a') := by
      rcases ha with ha | ha
      · rw [target_of_vram ha]
        simp
      · rw [target_of_wramx ha]
        exact cell_ne_cell (wram0Off_ne_wramBankedOff ha' ha).symm
    exact readByte_eq_of_same_cell (target_of_wram0 ha') (target_of_wram0 ha') (readCell_of_write8_ne h other)

/-- Settles O51: an address reaches cells of the selected half and chunk only. -/
theorem readsDoNotSeeUnselectedBanks : Obligations.ReadsDoNotSeeUnselectedBanks := by
  unfold Obligations.ReadsDoNotSeeUnselectedBanks
  refine fun a i v s => ⟨fun unselected => ?_, fun banked unselected => ?_⟩
  · exact readByte_writeCell_ne fun reached => unselected (vramBank_of_target reached)
  · refine readByte_writeCell_ne fun reached => ?_
    rcases wramBank_of_target reached with fixed | selected
    · omega
    · exact unselected selected

/-- Settles O54: an address without a store answers the sentinel under any banks, so no write before it matters. -/
theorem regionsWithoutAStore : Obligations.RegionsWithoutAStore := by
  unfold Obligations.RegionsWithoutAStore
  intro a v s ha
  refine ⟨?_, ?_, fun a' u t _ => readByte_of_noStore (target_eq_noStore ha)⟩
  · rw [exec_read8, readByte_of_noStore (target_eq_noStore ha)]
    rfl
  · rw [exec_write8]
    simp only [State.writeByte, target_eq_noStore ha]
    rfl

/-- Settles O56: the write leaves the new bank in force, and reaches a cell of HIGH, which no banked access does. -/
theorem bankSwitchIsInForceAtOnce : Obligations.BankSwitchIsInForceAtOnce := by
  unfold Obligations.BankSwitchIsInForceAtOnce
  constructor
  · intro v s t h
    obtain ⟨hv, hw⟩ := banks_of_write8 h
    rw [if_pos rfl] at hv
    rw [if_neg (by decide)] at hw
    refine ⟨by rw [hv, toNat_vramBankOfByte], hw, readByte_of_write8_same target_vbkAddr h, fun a lo hi => ?_⟩
    apply access_after_write8 h
    · rw [target_vbkAddr]
      simp
    · rw [target_of_vram ((region_eq_iff a .vram).mpr ⟨lo, hi⟩), vramOff, hv, toNat_vramBankOfByte]
      rfl
    · omega
  · intro v s t h
    obtain ⟨hv, hw⟩ := banks_of_write8 h
    rw [if_neg (by decide)] at hv
    rw [if_pos rfl] at hw
    refine ⟨by rw [hw, toNat_wramBankOfByte], hv, readByte_of_write8_same target_svbkAddr h, fun a lo hi => ?_⟩
    apply access_after_write8 h
    · rw [target_svbkAddr]
      simp
    · rw [target_of_wramx ((region_eq_iff a .wramx).mpr ⟨lo, hi⟩), wramBankedOff, hw, toNat_wramBankOfByte]
      rfl
    · omega

/-- Settles O57, by induction on the list of inputs: each step moves every cell as the reference says. -/
theorem cellsHoldTheMostRecentWrite : Obligations.CellsHoldTheMostRecentWrite := by
  unfold Obligations.CellsHoldTheMostRecentWrite
  intro s hs
  generalize hl : s.inputs = l
  induction l generalizing s with
  | nil => exact ⟨s, rfl, hl, hs, fun st i => rfl⟩
  | cons x rest ih =>
    obtain ⟨u, hstep, hrest, hcells⟩ := step_cellAfterInputs hs hl
    obtain ⟨t, hrun, hnone, hinv, hend⟩ := ih u (stepKeepsTheInvariant s u hs hstep) hrest
    exact ⟨t, (run_of_step hstep rest.length).trans hrun, hnone, hinv, fun st i => (hend st i).trans (hcells st i)⟩

end Sys2Proof.Machine
end

section
/-! SUPPORT. The command word (30_encoding.md): its fields as numbers, which selector an opcode takes and what the
selectors reject, and the one word of a decoded operation. -/

namespace Sys2Proof

variable {c : Command}

/-! ## The fields as numbers (R92) -/

theorem toNat_opField (c : Command) : (opField c).toNat = c.toNat / 2 ^ 27 := by
  have top := c.isLt
  rw [opField, BitVec.extractLsb'_toNat, Nat.shiftRight_eq_div_pow]
  omega

theorem toNat_rField (c : Command) : (rField c).toNat = c.toNat / 2 ^ 24 % 8 := by
  rw [rField, BitVec.extractLsb'_toNat, Nat.shiftRight_eq_div_pow]

theorem toNat_wField (c : Command) : (wField c).toNat = c.toNat / 2 ^ 8 % 2 ^ 16 := by
  rw [wField, BitVec.extractLsb'_toNat, Nat.shiftRight_eq_div_pow]

theorem toNat_bField (c : Command) : (bField c).toNat = c.toNat % 2 ^ 8 := Machine.toNat_lowBits c 8

/-- The fields below `r` as one number. -/
theorem toNat_low_fields (c : Command) : c.toNat % 2 ^ 24 = (wField c).toNat * 2 ^ 8 + (bField c).toNat := by
  rw [toNat_wField, toNat_bField]
  omega

/-- A word with the given four fields is the packed word. -/
theorem packCommand_eq_of_fields {op : BitVec 5} {r : BitVec 3} {w : Word} {b : Byte} (ho : (opField c).toNat = op.toNat)
    (hr : r = rField c) (hw : wField c = w) (hb : bField c = b) : packCommand op r w b = c := by
  rw [← BitVec.eq_of_toNat_eq ho, hr, ← hw, ← hb, packCommand_fields]

/-! ## The word of a decoded operation (R95) -/

theorem fields_clear {w : Word} {b : Byte} (h : (w == 0 && b == 0) = true) : w = 0 ∧ b = 0 := by
  simpa using h

/-- The byte of a flag setter that passes the test for unused bits is the operand of its flag (R96). -/
theorem flag_fields_clear {w : Word} {b : Byte} (h : (w == 0 && b.extractLsb' 1 7 == 0) = true) :
    w = 0 ∧ b = flagOperand (b.getLsbD 0) := by
  obtain ⟨hw, hb⟩ : w = 0 ∧ b.extractLsb' 1 7 = 0 := by simpa using h
  exact ⟨hw, (flagOperand_of_byte hb).symm⟩

/-- A word that decodes is the word of its operation: no bit of it goes unread (R95). -/
theorem encode_of_decode {i : Instr} (h : decode c = .ok i) : encode i = c := by
  unfold decode at h
  split at h
  case h_1 | h_2 => -- HI, LO
    obtain ⟨q, hr, _, hk⟩ := selectPair_eq_ok h
    obtain ⟨hz, rfl⟩ := ifClear_eq_ok hk
    exact packCommand_eq_of_fields ‹_› hr (fields_clear hz).1 (fields_clear hz).2
  case h_3 => -- VALUE
    obtain ⟨q, hr, hk⟩ := selectReg_eq_ok h
    obtain ⟨hz, rfl⟩ := ifClear_eq_ok hk
    exact packCommand_eq_of_fields ‹_› hr (fields_clear hz).1 (fields_clear hz).2
  case h_4 | h_5 => -- SETHI, SETLO
    obtain ⟨q, hr, _, hk⟩ := selectPair_eq_ok h
    obtain ⟨hz, rfl⟩ := ifClear_eq_ok hk
    exact packCommand_eq_of_fields ‹_› hr (eq_of_beq hz) rfl
  case h_6 => -- SET
    obtain ⟨q, hr, hk⟩ := selectReg_eq_ok h
    obtain ⟨hz, rfl⟩ := ifClear_eq_ok hk
    exact packCommand_eq_of_fields ‹_› hr rfl (eq_of_beq hz)
  case h_7 | h_8 | h_9 | h_10 => -- the flag getters
    obtain ⟨hr, hk⟩ := selectNone_eq_ok h
    obtain ⟨hz, rfl⟩ := ifClear_eq_ok hk
    exact packCommand_eq_of_fields ‹_› hr.symm (fields_clear hz).1 (fields_clear hz).2
  case h_11 | h_12 | h_13 | h_14 => -- the flag setters
    obtain ⟨hr, hk⟩ := selectNone_eq_ok h
    obtain ⟨hz, rfl⟩ := ifClear_eq_ok hk
    exact packCommand_eq_of_fields ‹_› hr.symm (flag_fields_clear hz).1 (flag_fields_clear hz).2
  case h_15 => -- READ8
    obtain ⟨hr, hk⟩ := selectNone_eq_ok h
    obtain ⟨hz, rfl⟩ := ifClear_eq_ok hk
    exact packCommand_eq_of_fields ‹_› hr.symm rfl (eq_of_beq hz)
  case h_16 => -- WRITE8
    obtain ⟨hr, hk⟩ := selectNone_eq_ok h
    cases hk
    exact packCommand_eq_of_fields ‹_› hr.symm rfl rfl
  case h_17 => cases h -- reserved

/-! ## Which selector an opcode takes (R93), and what the selectors reject (R98, R99) -/

/-- The opcodes without an operation (R98). -/
theorem decode_of_reservedOpcode (h : (opField c).toNat = 0 ∨ (opField c).toNat = 7 ∨ 0x12 ≤ (opField c).toNat) :
    decode c = .error .reservedOpcode := by
  unfold decode
  split
  case h_17 => rfl
  all_goals omega

/-- HI, LO, SETHI and SETLO take a pair. -/
theorem decode_eq_selectPair (h : (opField c).toNat ∈ [0x01, 0x02, 0x04, 0x05]) : ∃ k, decode c = selectPair c k := by
  unfold decode
  split
  case h_1 | h_2 | h_4 | h_5 => exact ⟨_, rfl⟩
  all_goals simp_all

/-- VALUE and SET take any register. -/
theorem decode_eq_selectReg (h : (opField c).toNat ∈ [0x03, 0x06]) : ∃ k, decode c = selectReg c k := by
  unfold decode
  split
  case h_3 | h_6 => exact ⟨_, rfl⟩
  all_goals simp_all

/-- The flag operations, READ8 and WRITE8 take no register. -/
theorem decode_eq_selectNone (hl : 0x08 ≤ (opField c).toNat) (hu : (opField c).toNat ≤ 0x11) :
    ∃ k, decode c = selectNone c k := by
  interval_cases ho : (opField c).toNat <;> (simp only [decode, ho]; exact ⟨_, rfl⟩)

theorem selectReg_reserved {k : Reg → Except Illegal Instr} (h : 6 ≤ (rField c).toNat) :
    selectReg c k = .error .registerSelect := by
  rw [selectReg, Reg.ofCode_none h]

theorem selectPair_reserved {k : Reg → Except Illegal Instr} (h : 5 ≤ (rField c).toNat) :
    selectPair c k = .error .registerSelect := by
  unfold selectPair selectReg
  split
  · refine if_neg ?_
    rw [Reg.isPair_of_ofCode ‹_›, decide_eq_true_eq]
    omega
  · rfl

theorem selectNone_reserved {k : Except Illegal Instr} (h : (rField c).toNat ≠ 0) :
    selectNone c k = .error .registerSelect := by
  rw [selectNone, if_neg]
  exact fun hr => h (by rw [hr]; rfl)

/-! ## The fields an operation does not use are zero in its word (R95, R100) -/

/-- A word that is no operation's word is ILLEGAL: the other side of `encode_of_decode`. -/
theorem exists_error_of_ne_encode (h : ∀ i, encode i ≠ c) : ∃ e, decode c = .error e := by
  cases hd : decode c with
  | error e => exact ⟨e, rfl⟩
  | ok i => exact absurd (encode_of_decode hd) (h i)

/-- HI, LO, VALUE and the flag getters use neither `w` nor `b`. -/
theorem encode_w_b_zero {i : Instr} (h : (opField (encode i)).toNat ∈ [0x01, 0x02, 0x03, 0x08, 0x09, 0x0A, 0x0B]) :
    wField (encode i) = 0 ∧ bField (encode i) = 0 := by
  cases i <;> simp_all [encode]

/-- SETHI and SETLO use no `w`. -/
theorem encode_w_zero {i : Instr} (h : (opField (encode i)).toNat ∈ [0x04, 0x05]) : wField (encode i) = 0 := by
  cases i <;> simp_all [encode]

/-- SET and READ8 use no `b`. -/
theorem encode_b_zero {i : Instr} (h : (opField (encode i)).toNat ∈ [0x06, 0x10]) : bField (encode i) = 0 := by
  cases i <;> simp_all [encode]

/-- The flag setters use bit 0 of `b` only (R96). -/
theorem encode_flag {i : Instr} (h : (opField (encode i)).toNat ∈ [0x0C, 0x0D, 0x0E, 0x0F]) :
    wField (encode i) = 0 ∧ ∃ f, bField (encode i) = flagOperand f := by
  cases i <;> simp_all [encode]

end Sys2Proof
end

section
/-! SUPPORT. The form of a response (30_encoding.md R97). -/

namespace Sys2Proof.Machine

theorem toNat_zext16_le (b : Byte) : (zext16 b).toNat ≤ 0xFF := by
  have top := b.isLt
  rw [zext16, BitVec.toNat_setWidth_of_le (by decide)]
  omega

theorem boolResponse_cases (f : Bool) : boolResponse f = 0 ∨ boolResponse f = 1 := by
  cases f
  · exact .inl rfl
  · exact .inr rfl

theorem onPair_of_isPair {r : Reg} (h : r.isPair = true) (s t : State) : s.onPair r t = t := if_pos h

end Sys2Proof.Machine
end

section
/-! SUPPORT. The statements about the command word and the response (30_encoding.md), settled. -/

namespace Sys2Proof.Machine

/-- Settles O2, operation by operation: every field reads back from the packed word. -/
theorem decodeOfEncodeIsTheOperation : Obligations.DecodeOfEncodeIsTheOperation := by
  unfold Obligations.DecodeOfEncodeIsTheOperation
  intro i wf
  cases i with
  | hi r | lo r | setHi r b | setLo r b =>
    have pair : r.isPair = true := wf
    simp [decode, encode, ifClear, pair]
  | value | set | zero | subtract | halfCarry | carry | setZero | setSubtract | setHalfCarry | setCarry | read8 | write8 =>
    simp [decode, encode, ifClear]

/-- Settles O3: the decoder reads every bit of a word. -/
theorem legalWordIsTheWordOfItsOperation : Obligations.LegalWordIsTheWordOfItsOperation := by
  unfold Obligations.LegalWordIsTheWordOfItsOperation
  exact fun c i h => ⟨wellFormed_of_decode h, encode_of_decode h⟩

/-- Settles O4: opcode and select are rejected by the decoder's own tests; a word with a bit set in an unused field is
the word of no operation, so O3 leaves it no reading. -/
theorem reservedWordsAreIllegal : Obligations.ReservedWordsAreIllegal := by
  unfold Obligations.ReservedWordsAreIllegal
  simp only [toNat_low_fields, ← toNat_opField, ← toNat_rField, ← toNat_wField, ← toNat_bField]
  refine ⟨fun c ho => decode_of_reservedOpcode ho, fun c ho hr => ?_, fun c ho hr => ?_, fun c hl hu hr => ?_,
    fun c ho hlow => exists_error_of_ne_encode ?_, fun c ho hw => exists_error_of_ne_encode ?_,
    fun c ho hb => exists_error_of_ne_encode ?_, fun c ho hlow => exists_error_of_ne_encode ?_⟩
  · obtain ⟨k, hk⟩ := decode_eq_selectPair ho
    rw [hk, selectPair_reserved hr]
  · obtain ⟨k, hk⟩ := decode_eq_selectReg ho
    rw [hk, selectReg_reserved hr]
  · obtain ⟨k, hk⟩ := decode_eq_selectNone hl hu
    rw [hk, selectNone_reserved hr]
  · rintro i rfl
    obtain ⟨hw, hb⟩ := encode_w_b_zero ho
    rw [hw, hb] at hlow
    exact hlow rfl
  · rintro i rfl
    rw [encode_w_zero ho] at hw
    exact hw rfl
  · rintro i rfl
    rw [encode_b_zero ho] at hb
    exact hb rfl
  · rintro i rfl
    obtain ⟨hw, f, hb⟩ := encode_flag ho
    rw [hw, hb] at hlow
    cases f <;> exact absurd hlow (by decide)

/-- Settles O10, operation by operation: each answers through `respond` with a value of its kind. -/
theorem responsesHaveTheStatedForm : Obligations.ResponsesHaveTheStatedForm := by
  unfold Obligations.ResponsesHaveTheStatedForm
  intro i s t wf h
  cases i with
  | hi r | lo r =>
    cases h
    rw [onPair_of_isPair wf]
    exact ⟨rfl, toNat_zext16_le _⟩
  | read8 a => cases h; exact ⟨rfl, toNat_zext16_le _⟩
  | value r => cases h; exact ⟨rfl, rfl⟩
  | zero | subtract | halfCarry | carry => cases h; exact ⟨rfl, boolResponse_cases _⟩
  | setHi r b | setLo r b =>
    cases h
    rw [onPair_of_isPair wf]
    exact ⟨rfl, rfl⟩
  | set | setZero | setSubtract | setHalfCarry | setCarry | write8 => cases h; exact ⟨rfl, rfl⟩

/-- Settles O1: the ten words are decoded by evaluation. -/
theorem exampleWordsDecode : Obligations.ExampleWordsDecode := by
  unfold Obligations.ExampleWordsDecode
  exact ⟨rfl, rfl, rfl, rfl, rfl, rfl, rfl, rfl, rfl, rfl⟩

/-- Settles O5: `step` takes the word, decodes it and calls `exec`. -/
theorem stepRunsTheDecodedOperation : Obligations.StepRunsTheDecodedOperation := by
  unfold Obligations.StepRunsTheDecodedOperation
  intro s c rest i hs hd
  simp only [step, State.takeInput, hs, hd]

end Sys2Proof.Machine
end

section
/-! SUPPORT. What the six register-pair operations leave, written with shifts and masks: the layer the proofs about them
(40_register_pair_ops.md) rest on. -/

namespace Sys2Proof.Machine

/-! ## Byte views as shifts and masks (10_state.md R10) -/

theorem zext16_hiByte (v : Word) : zext16 (hiByte v) = v >>> 8 := by
  apply BitVec.eq_of_getLsbD_eq
  intro k hk
  rw [getLsbD_zext16, getLsbD_hiByte, BitVec.getLsbD_ushiftRight]
  by_cases h8 : k < 8
  · simp [h8]
  · simp [h8, BitVec.getLsbD_of_ge v (8 + k) (by omega)]

theorem zext16_loByte (v : Word) : zext16 (loByte v) = v &&& 0x00FF := by
  have low : ∀ k : Fin 16, (0x00FF#16).getLsbD k = decide (k.1 < 8) := by decide
  apply BitVec.eq_of_getLsbD_eq
  intro k hk
  rw [getLsbD_zext16, getLsbD_loByte, BitVec.getLsbD_and, Bool.and_comm]
  exact congrArg _ (low ⟨k, hk⟩).symm

theorem joinBytes_eq_or (hi lo : Byte) : joinBytes hi lo = zext16 hi <<< 8 ||| zext16 lo := by
  apply BitVec.eq_of_getLsbD_eq
  intro k hk
  rw [getLsbD_joinBytes, BitVec.getLsbD_or, BitVec.getLsbD_shiftLeft, getLsbD_zext16, getLsbD_zext16]
  by_cases h8 : k < 8
  · simp [h8]
  · simp [h8, hk, BitVec.getLsbD_of_ge lo k (by omega)]

/-- The high byte in its place is the value with its low byte cleared. -/
theorem zext16_hiByte_shiftLeft (v : Word) : zext16 (hiByte v) <<< 8 = v &&& 0xFF00 := by
  have high : BitVec.allOnes 16 <<< 8 = 0xFF00 := by decide
  rw [zext16_hiByte, BitVec.shiftLeft_ushiftRight, high]

/-- A new high byte over the kept low byte (R123). -/
theorem joinBytes_loByte (b : Byte) (v : Word) : joinBytes b (loByte v) = b.setWidth 16 <<< 8 ||| v &&& 0x00FF := by
  rw [joinBytes_eq_or, zext16_loByte, zext16]

/-- The kept high byte over a new low byte (R124). -/
theorem joinBytes_hiByte (v : Word) (b : Byte) : joinBytes (hiByte v) b = v &&& 0xFF00 ||| b.setWidth 16 := by
  rw [joinBytes_eq_or, zext16_hiByte_shiftLeft, zext16]

/-- AF's mask acts on the low byte only (10_state.md R12). -/
theorem joinBytes_and_afMask (hi lo : Byte) : joinBytes hi lo &&& Config.afMask = joinBytes hi (lo &&& 0xF0) := by
  rw [← joinBytes_hiByte_loByte (joinBytes hi lo &&& Config.afMask), hiByte_and_afMask, loByte_and_afMask,
    hiByte_joinBytes, loByte_joinBytes]

/-- Where R13 holds the flags byte has no bit the mask clears. -/
theorem State.afMasked.loByte_and {s : State} (h : s.afMasked) : loByte s.af &&& 0xF0 = loByte s.af := by
  rw [← loByte_and_afMask, h.af_and_afMask]

/-! ## The six operations on a register that has the view asked for -/

theorem writeReg_of_ne_af {r : Reg} (h : r ≠ .af) (s : State) (v : Word) : s.writeReg r v = s.setReg r v := by
  rw [State.writeReg, and_regMask_of_ne h]

theorem writeReg_af (s : State) (v : Word) : s.writeReg .af v = { s with af := v &&& Config.afMask } := rfl

section
variable {r : Reg}

theorem exec_hi (h : r.isPair = true) (s : State) : exec (.hi r) s = .next (s.respond (s.reg r >>> 8)) := by
  rw [← zext16_hiByte, ← onPair_of_isPair h s (s.respond _)]
  rfl

theorem exec_lo (h : r.isPair = true) (s : State) : exec (.lo r) s = .next (s.respond (s.reg r &&& 0x00FF)) := by
  rw [← zext16_loByte, ← onPair_of_isPair h s (s.respond _)]
  rfl

theorem exec_value (r : Reg) (s : State) : exec (.value r) s = .next (s.respond (s.reg r)) := rfl

theorem exec_setHi (h : r.isPair = true) (b : Byte) (s : State) :
    exec (.setHi r b) s = .next ((s.writeReg r (joinBytes b (loByte (s.reg r)))).respond 0) :=
  congrArg Host.Outcome.next (onPair_of_isPair h s _)

theorem exec_setLo (h : r.isPair = true) (b : Byte) (s : State) :
    exec (.setLo r b) s = .next ((s.writeReg r (joinBytes (hiByte (s.reg r)) b)).respond 0) :=
  congrArg Host.Outcome.next (onPair_of_isPair h s _)

theorem exec_set (r : Reg) (w : Word) (s : State) : exec (.set r w) s = .next ((s.writeReg r w).respond 0) := rfl

/-- Of the pairs only AF has a mask that clears bits, so the others take all 16 bits (R127). -/
theorem exec_setHi_of_ne_af (h : r.isPair = true) (ne : r ≠ .af) (b : Byte) (s : State) :
    exec (.setHi r b) s = .next ((s.setReg r (b.setWidth 16 <<< 8 ||| s.reg r &&& 0x00FF)).respond 0) := by
  rw [exec_setHi h, joinBytes_loByte, writeReg_of_ne_af ne]

theorem exec_setLo_of_ne_af (h : r.isPair = true) (ne : r ≠ .af) (b : Byte) (s : State) :
    exec (.setLo r b) s = .next ((s.setReg r (s.reg r &&& 0xFF00 ||| b.setWidth 16)).respond 0) := by
  rw [exec_setLo h, joinBytes_hiByte, writeReg_of_ne_af ne]

theorem exec_set_of_ne_af (ne : r ≠ .af) (w : Word) (s : State) :
    exec (.set r w) s = .next ((s.setReg r w).respond 0) := by
  rw [exec_set, writeReg_of_ne_af ne]

end

/-- No word asks for an operation the block does not have, as a byte view of PC (R99). -/
theorem decode_ne_of_not_wellFormed {i : Instr} (h : i.wellFormed = false) (c : Command) : decode c ≠ .ok i :=
  fun hd => Bool.false_ne_true (h.symm.trans (wellFormed_of_decode hd))

/-! ## What an operation may change -/

/-- The operations that only answer change the response ports and nothing else. -/
theorem exec_reading {i : Instr} {s t : State}
    (hi : (∃ r, i = .hi r ∨ i = .lo r ∨ i = .value r) ∨ (∃ x, i = flagGetter x) ∨ ∃ w, i = .read8 w)
    (h : exec i s = .next t) : (∃ v, t = s.respond v) ∨ t = s.illegalResponse := by
  rcases hi with ⟨r, rfl | rfl | rfl⟩ | ⟨x, rfl⟩ | ⟨w, rfl⟩
  · cases h; exact (onPair_cases s _ r).imp (fun e => ⟨_, e.2⟩) (·.2)
  · cases h; exact (onPair_cases s _ r).imp (fun e => ⟨_, e.2⟩) (·.2)
  · cases h; exact .inl ⟨_, rfl⟩
  · cases x <;> (cases h; exact .inl ⟨_, rfl⟩)
  · cases h; exact .inl ⟨_, rfl⟩

/-- SETHI, SETLO and SET change the state through one write of the register they name. -/
theorem exec_registerWrite {r : Reg} {b : Byte} {w : Word} {s t : State}
    (h : exec (.setHi r b) s = .next t ∨ exec (.setLo r b) s = .next t ∨ exec (.set r w) s = .next t) :
    (∃ v, t = (s.writeReg r v).respond 0) ∨ t = s.illegalResponse := by
  rcases h with h | h | h
  · cases h; exact (onPair_cases s _ r).imp (fun e => ⟨_, e.2⟩) (·.2)
  · cases h; exact (onPair_cases s _ r).imp (fun e => ⟨_, e.2⟩) (·.2)
  · cases h; exact .inl ⟨w, rfl⟩

/-- A register that a write changes is the one it names. -/
theorem eq_of_reg_writeReg_ne {s : State} {q r : Reg} {v : Word} (h : (s.writeReg q v).reg r ≠ s.reg r) : r = q := by
  by_contra ne
  exact h ((State.reg_writeReg s q r v).trans (if_neg ne))

end Sys2Proof.Machine
end

section
/-! SUPPORT. The statements about the register-pair operations (40_register_pair_ops.md), settled. -/

namespace Sys2Proof.Machine

/-- Settles O19: a pair other than AF takes the joined bytes; AF's mask acts on the kept flags byte only, and under R13
leaves that as it is. -/
theorem setHiReplacesTheHighByte : Obligations.SetHiReplacesTheHighByte := by
  unfold Obligations.SetHiReplacesTheHighByte
  refine ⟨fun r b _ => ?_, fun c _ => decode_ne_of_not_wellFormed rfl c, fun b s => ⟨?_, fun hs => ?_,
    exec_setHi_of_ne_af rfl (by decide) b s, exec_setHi_of_ne_af rfl (by decide) b s,
    exec_setHi_of_ne_af rfl (by decide) b s, exec_setHi_of_ne_af rfl (by decide) b s⟩⟩
  · simp [encode, toNat_packCommand]
  · rw [exec_setHi rfl, State.reg_af, joinBytes_loByte]
    rfl
  · rw [exec_setHi rfl, State.reg_af, writeReg_af, joinBytes_and_afMask, hs.loByte_and, joinBytes_loByte]
    rfl

/-- Settles O20: a pair other than AF takes the joined bytes; AF's mask acts on the new byte only. -/
theorem setLoReplacesTheLowByte : Obligations.SetLoReplacesTheLowByte := by
  unfold Obligations.SetLoReplacesTheLowByte
  refine ⟨fun r b _ => ?_, fun c _ => decode_ne_of_not_wellFormed rfl c, fun b s => ⟨?_,
    exec_setLo_of_ne_af rfl (by decide) b s, exec_setLo_of_ne_af rfl (by decide) b s,
    exec_setLo_of_ne_af rfl (by decide) b s, exec_setLo_of_ne_af rfl (by decide) b s⟩⟩
  · simp [encode, toNat_packCommand]
  · rw [exec_setLo rfl, State.reg_af, writeReg_af, joinBytes_and_afMask, joinBytes_hiByte, BitVec.setWidth_and]
    rfl

/-- Settles O27: these operations change the response ports only, which no clause looks at. -/
theorem readingOperationsChangeNothing : Obligations.ReadingOperationsChangeNothing := by
  unfold Obligations.ReadingOperationsChangeNothing
  intro i s t hi h
  rcases exec_reading hi h with ⟨v, rfl⟩ | rfl
  · exact ⟨State.reg_respond s v, ⟨rfl, rfl⟩, ⟨State.readCell_respond s v, readByte_respond s v⟩, rfl, rfl⟩
  · exact ⟨State.reg_illegalResponse s, ⟨rfl, rfl⟩, ⟨State.readCell_illegalResponse s, readByte_illegalResponse s⟩,
      rfl, rfl⟩

/-- Settles O28: one register write, and the response; the flags are bits of AF. -/
theorem registerWritesChangeOneRegister : Obligations.RegisterWritesChangeOneRegister := by
  unfold Obligations.RegisterWritesChangeOneRegister
  intro r b w s t h
  rcases exec_registerWrite h with ⟨v, rfl⟩ | rfl
  · refine ⟨fun q hq => ?_, fun hr x => flag_writeReg_of_ne hr s v x, ?_, ⟨fun st i => ?_, fun a => ?_⟩, ?_⟩
    · rw [State.reg_respond, State.reg_writeReg, if_neg hq]
    · simp [SameBanks]
    · rw [State.readCell_respond, State.readCell_writeReg]
    · rw [readByte_respond, readByte_writeReg]
    · simp [SameOutside]
  · exact ⟨fun q _ => State.reg_illegalResponse s q, fun _ x => rfl, ⟨rfl, rfl⟩,
      ⟨State.readCell_illegalResponse s, readByte_illegalResponse s⟩, rfl, rfl⟩

/-- Settles O40: an operation writes registers through `writeReg` only, the flag setters at AF. -/
theorem pairChangesOnlyByItsWriters : Obligations.PairChangesOnlyByItsWriters := by
  unfold Obligations.PairChangesOnlyByItsWriters
  intro s t r h hne
  rcases exec_of_step_changes (f := (State.reg · r)) (fun s l => State.reg_withInputs s l r)
    (fun s => State.reg_illegalResponse s r) h hne with hr | ⟨i, u, hi, hx, hne⟩
  · exact .inl hr
  rcases exec_cases hx with ⟨v, rfl⟩ | ⟨_, rfl⟩ | ⟨q, b, rfl, _, rfl⟩ | ⟨q, b, rfl, _, rfl⟩ | ⟨q, w, rfl, rfl⟩ |
    ⟨x, f, rfl, rfl⟩ | ⟨a, v, _, rfl⟩
  · exact absurd (State.reg_respond u v r) hne
  · exact absurd (State.reg_illegalResponse u r) hne
  · obtain rfl := eq_of_reg_writeReg_ne (State.reg_respond _ _ r ▸ hne)
    exact .inr (.inl ⟨b, hi⟩)
  · obtain rfl := eq_of_reg_writeReg_ne (State.reg_respond _ _ r ▸ hne)
    exact .inr (.inr (.inl ⟨b, hi⟩))
  · obtain rfl := eq_of_reg_writeReg_ne (State.reg_respond _ _ r ▸ hne)
    exact .inr (.inr (.inr (.inl ⟨w, hi⟩)))
  · have af : r = .af := eq_of_reg_writeReg_ne (State.reg_respond _ _ r ▸ hne)
    exact .inr (.inr (.inr (.inr ⟨af, x, f, hi⟩)))
  · exact absurd (reg_writeByte u a v r) hne

/-- Settles O43, operation by operation: each reads and writes one register, or AF, and the response ports. -/
theorem registerOperationsIgnoreTheAddressSpace : Obligations.RegisterOperationsIgnoreTheAddressSpace := by
  unfold Obligations.RegisterOperationsIgnoreTheAddressSpace
  intro i s t vb wb m₁ m₂ m₃ m₄ c hi h
  cases i with
  | hi r | lo r | value r | setHi r b | setLo r b | set r w => cases h; cases r <;> rfl
  | zero | subtract | halfCarry | carry | setZero | setSubtract | setHalfCarry | setCarry => cases h; rfl
  | read8 | write8 => cases hi

/-- Settles O16: the high byte is the value shifted down. -/
theorem hiReturnsTheHighByte : Obligations.HiReturnsTheHighByte := by
  unfold Obligations.HiReturnsTheHighByte
  refine ⟨fun r _ => ?_, fun r s hp => exec_hi hp s, decode_ne_of_not_wellFormed rfl, fun s hs => ?_⟩
  · simp [encode, toNat_packCommand]
  · have high : s.bc >>> 8 = 0xBE := by rw [hs]; decide
    rw [exec_hi rfl, State.reg_bc, high]
    rfl

/-- Settles O17: the low byte is the value masked, and under R13 AF's low nibble is zero in it. -/
theorem loReturnsTheLowByte : Obligations.LoReturnsTheLowByte := by
  unfold Obligations.LoReturnsTheLowByte
  refine ⟨fun r _ => ?_, fun r s hp => exec_lo hp s, fun s t hs h => ?_, decode_ne_of_not_wellFormed rfl,
    fun s hs => ?_⟩
  · simp [encode, toNat_packCommand]
  · rw [exec_lo rfl] at h
    cases h
    calc s.af &&& 0x00FF &&& 0x000F
        = s.af &&& 0x000F := BitVec.and_assoc s.af 0x00FF 0x000F
      _ = 0 := (afMasked_iff_lowNibble s).mp hs
  · have low : s.af &&& 0x00FF = 0x80 := by rw [hs]; decide
    rw [exec_lo rfl, State.reg_af, low]
    rfl

/-- Settles O18: VALUE answers the register itself, which for a pair is its two bytes joined. -/
theorem valueReturnsTheRegister : Obligations.ValueReturnsTheRegister := by
  unfold Obligations.ValueReturnsTheRegister
  refine ⟨fun r => ?_, exec_value, fun s t hs h => ?_, fun r s h l v hp hh hl hv => ?_, rfl, rfl, rfl⟩
  · simp [encode, toNat_packCommand]
  · cases h
    exact (afMasked_iff_lowNibble s).mp hs
  · rw [exec_hi hp] at hh
    rw [exec_lo hp] at hl
    cases hh; cases hl; cases hv
    calc s.reg r
        = joinBytes (hiByte (s.reg r)) (loByte (s.reg r)) := (joinBytes_hiByte_loByte _).symm
      _ = s.reg r >>> 8 <<< 8 ||| s.reg r &&& 0x00FF := by rw [joinBytes_eq_or, zext16_hiByte, zext16_loByte]

/-- Settles O21: the write's mask clears bits of AF only. -/
theorem setReplacesTheWholeValue : Obligations.SetReplacesTheWholeValue := by
  unfold Obligations.SetReplacesTheWholeValue
  refine ⟨fun r w => ?_, fun w s => ⟨rfl, exec_set_of_ne_af (by decide) w s, exec_set_of_ne_af (by decide) w s,
    exec_set_of_ne_af (by decide) w s, exec_set_of_ne_af (by decide) w s, exec_set_of_ne_af (by decide) w s⟩⟩
  simp [encode, toNat_packCommand]

end Sys2Proof.Machine
end

section
/-! SUPPORT. What the flag operations answer and leave, with shifts and masks: the layer the proofs about them
(41_flag_ops.md) rest on. -/

namespace Sys2Proof.Machine

/-! ## Getters -/

/-- The four flag getters are one operation (41_flag_ops.md R141 to R144). -/
theorem exec_flagGetter (x : Flag) (s : State) :
    exec (flagGetter x) s = .next (s.respond (boolResponse (s.flag x))) := by cases x <;> rfl

/-- A flag on the response port is its bit of AF shifted down. -/
theorem boolResponse_flag (s : State) (x : Flag) : boolResponse (s.flag x) = s.af >>> flagBit x &&& 1#16 := by
  apply BitVec.eq_of_getLsbD_eq
  intro k _
  rw [getLsbD_boolResponse, BitVec.getLsbD_and, BitVec.getLsbD_ushiftRight, BitVec.getLsbD_one, State.flag,
    getLsbD_loByte, State.reg_af]
  by_cases h0 : k = 0
  · simp [h0, (flagBit_bounds x).2]
  · simp [h0]

theorem exec_flagGetter_shift (x : Flag) (s : State) :
    exec (flagGetter x) s = .next (s.respond (s.af >>> flagBit x &&& 1#16)) := by
  rw [exec_flagGetter, boolResponse_flag]

/-! ## Setters -/

theorem af_writeFlag_true (s : State) (x : Flag) :
    (s.writeFlag x true).af = (s.af ||| zext16 (flagMask x)) &&& Config.afMask := by
  obtain ⟨h4, h8⟩ := flagBit_bounds x
  apply BitVec.eq_of_getLsbD_eq
  intro k hk
  rw [getLsbD_af_writeFlag, BitVec.getLsbD_and, BitVec.getLsbD_or, getLsbD_zext16, getLsbD_flagMask, getLsbD_afMask]
  by_cases hx : k = flagBit x
  · simp [hx, h4, show flagBit x < 16 by omega]
  · simp [hx, hk, Bool.and_comm]

theorem af_writeFlag_false (s : State) (x : Flag) :
    (s.writeFlag x false).af = s.af &&& (~~~zext16 (flagMask x) &&& Config.afMask) := by
  apply BitVec.eq_of_getLsbD_eq
  intro k hk
  rw [getLsbD_af_writeFlag, BitVec.getLsbD_and, BitVec.getLsbD_and, BitVec.getLsbD_not, getLsbD_zext16,
    getLsbD_flagMask, getLsbD_afMask]
  by_cases hx : k = flagBit x
  · simp [hx]
  · simp [hx, hk, Bool.and_comm]

theorem exec_flagSetter_true (x : Flag) (s : State) : exec (flagSetter x true) s =
    .next { s with af := (s.af ||| zext16 (flagMask x)) &&& Config.afMask, rsp := 0, ill := false } := by
  rw [exec_flagSetter, ← af_writeFlag_true]
  rfl

theorem exec_flagSetter_false (x : Flag) (s : State) : exec (flagSetter x false) s =
    .next { s with af := s.af &&& (~~~zext16 (flagMask x) &&& Config.afMask), rsp := 0, ill := false } := by
  rw [exec_flagSetter, ← af_writeFlag_false]
  rfl

/-- A flag setter is SETLO AF of the flags byte with the one bit set or cleared (41_flag_ops.md R149). -/
theorem exec_flagSetter_eq_setLo (x : Flag) (f : Bool) (s : State) :
    exec (flagSetter x f) s = exec (.setLo .af (withFlag (loByte s.af) x f)) s := by
  rw [exec_flagSetter, exec_setLo rfl]
  rfl

/-- SETLO AF keeps the high byte and masks the joined value (40_register_pair_ops.md R124). -/
theorem exec_setLo_af (b : Byte) (s : State) : exec (.setLo .af b) s =
    .next { s with af := (s.af &&& 0xFF00 ||| b.setWidth 16) &&& 0xFFF0, rsp := 0, ill := false } := by
  rw [exec_setLo rfl, State.reg_af, joinBytes_hiByte]
  rfl

theorem hiByte_af_writeFlag (s : State) (x : Flag) (f : Bool) : hiByte (s.writeFlag x f).af = hiByte s.af :=
  (hiByte_and_afMask _).trans (hiByte_joinBytes _ _)

/-! ## What a setter leaves of AF -/

section
variable {s t : State} {x : Flag} {f : Bool} (h : exec (flagSetter x f) s = .next t)
include h

/-- Where R13 holds the mask changes nothing, so a setter writes its own bit of AF only (41_flag_ops.md R150). -/
theorem getLsbD_af_of_flagSetter (hs : s.afMasked) (k : Nat) :
    t.af.getLsbD k = if k = flagBit x then f else s.af.getLsbD k := by
  rw [exec_flagSetter] at h
  cases h
  rw [State.af_respond, getLsbD_af_writeFlag]
  by_cases h4 : 4 ≤ k
  · simp [h4]
  · simp [h4, (afMasked_iff s).mp hs k (by omega)]

/-- In every state the getter of another flag answers after a setter what it answered before. -/
theorem exec_flagGetter_of_flagSetter_ne {y : Flag} {g : State} (ne : y ≠ x) (hg : exec (flagGetter y) s = .next g) :
    exec (flagGetter y) t = .next (t.respond g.rsp) := by
  rw [exec_flagSetter] at h
  rw [exec_flagGetter] at hg ⊢
  cases h; cases hg
  have same : ((s.writeFlag x f).respond 0).flag y = s.flag y := (flag_writeFlag s x y f).trans (if_neg ne)
  rw [same, State.rsp_respond]

/-- In every state HI AF answers after a setter what it answered before. -/
theorem exec_hi_af_of_flagSetter : exec (.hi .af) t = .next (t.respond (s.af >>> 8)) := by
  rw [exec_flagSetter] at h
  cases h
  rw [exec_hi rfl, State.reg_af, State.af_respond, ← zext16_hiByte, hiByte_af_writeFlag, zext16_hiByte]

end

end Sys2Proof.Machine
end

section
/-! SUPPORT. The statements about the flag operations (41_flag_ops.md), settled. -/

namespace Sys2Proof.Machine

/-- Settles O29: the setter is a SETLO of AF, so O28 gives the frame outside AF; within AF only the one bit changes. -/
theorem flagSetterChangesOneBit : Obligations.FlagSetterChangesOneBit := by
  unfold Obligations.FlagSetterChangesOneBit
  intro x f s t hs h
  have setLo := exec_flagSetter_eq_setLo x f s ▸ h
  obtain ⟨registers, -, banks, memory, outside⟩ := registerWritesChangeOneRegister .af _ 0 s t (.inr (.inl setLo))
  have bit := getLsbD_af_of_flagSetter h hs
  exact ⟨(bit _).trans (if_pos rfl), fun k hk => (bit k).trans (if_neg hk), registers, banks, memory, outside,
    fun y g ne hg => exec_flagGetter_of_flagSetter_ne h ne hg, exec_hi_af_of_flagSetter h⟩

/-- Settles O33: for each flag the mask of its bit is a fixed number; the last clause is the bitwise view of AF. -/
theorem flagSettersSetOrClearTheirBit : Obligations.FlagSettersSetOrClearTheirBit := by
  unfold Obligations.FlagSettersSetOrClearTheirBit
  refine ⟨fun f => ?_, fun s => ?_, fun s t x f hs h k hk => (getLsbD_af_of_flagSetter h hs k).trans (if_neg hk)⟩
  · cases f <;> exact ⟨rfl, rfl, rfl, rfl⟩
  · exact ⟨exec_flagSetter_true .zero s, exec_flagSetter_false .zero s,
      exec_flagSetter_true .subtract s, exec_flagSetter_false .subtract s,
      exec_flagSetter_true .halfCarry s, exec_flagSetter_false .halfCarry s,
      exec_flagSetter_true .carry s, exec_flagSetter_false .carry s⟩

/-- Settles O34: the byte written is `withFlag` of AF's low byte, and SETLO AF masks again. -/
theorem flagSetterIsAByteWriteOfAf : Obligations.FlagSetterIsAByteWriteOfAf := by
  unfold Obligations.FlagSetterIsAByteWriteOfAf
  refine ⟨rfl, rfl, rfl, rfl, fun x f s lo hlo => ?_⟩
  have setLo : exec (flagSetter x f) s = exec (.setLo .af lo) s := hlo ▸ exec_flagSetter_eq_setLo x f s
  exact ⟨setLo, setLo.trans (exec_setLo_af lo s)⟩

/-- Settles O32: each getter answers its flag, which is a bit of AF shifted down. -/
theorem flagGettersReturnTheirBit : Obligations.FlagGettersReturnTheirBit := by
  unfold Obligations.FlagGettersReturnTheirBit
  exact ⟨rfl, rfl, rfl, rfl, fun s => ⟨exec_flagGetter_shift .zero s, exec_flagGetter_shift .subtract s,
    exec_flagGetter_shift .halfCarry s, exec_flagGetter_shift .carry s⟩⟩

end Sys2Proof.Machine
end

section
/-! SUPPORT. READ8 (42_read8.md): what an address reads as, for each kind of region, and the registers as a part of the
state the address space does not look at. The proofs about READ8 rest on this layer. -/

namespace Sys2Proof.Machine

section
variable {s : State} {a : Word} {vb : BitVec 1} {wb : BitVec 3}

theorem target_of_oam (h : region a = .oam) : target a vb wb = .cell .oam (oamOff a) := by simp only [target, h]

theorem target_of_high (h : region a = .high) : target a vb wb = .cell .high (highOff a) := by simp only [target, h]

/-- Both cartridge regions read the Cartridge at the address unchanged (20_memory.md R60). -/
theorem readByte_of_cartOwned (h : cartOwned a) : s.readByte a = Config.cartRead s.cart a := by
  rcases h with rom | xram
  · simp only [State.readByte, target, (region_eq_iff a .rom).mpr ⟨Nat.zero_le _, rom⟩]
  · simp only [State.readByte, target, (region_eq_iff a .xram).mpr xram]

end

/-- The state with other values in all five pairs and the program counter. -/
def State.withRegisters (s : State) (v : Reg → Word) : State :=
  { s with af := v .af, bc := v .bc, de := v .de, hl := v .hl, sp := v .sp, pc := v .pc }

theorem State.withRegisters_eq_setReg (s : State) (v : Reg → Word) : s.withRegisters v =
    (((((s.setReg .af (v .af)).setReg .bc (v .bc)).setReg .de (v .de)).setReg .hl (v .hl)).setReg .sp (v .sp)).setReg
      .pc (v .pc) := rfl

/-- The read path looks at no register (42_read8.md R171). -/
theorem readByte_withRegisters (s : State) (v : Reg → Word) (a : Word) :
    (s.withRegisters v).readByte a = s.readByte a :=
  readByte_congr rfl rfl (fun st i => by simp only [State.withRegisters_eq_setReg, State.readCell_setReg]) rfl a

/-- The write path looks at no register and changes none (43_write8.md R180). -/
theorem writeByte_withRegisters (s : State) (v : Reg → Word) (a : Word) (b : Byte) :
    (s.withRegisters v).writeByte a b = (s.writeByte a b).withRegisters v := by
  simp only [State.withRegisters_eq_setReg, writeByte_setReg]

/-- The operations of the address space are READ8 and WRITE8 (20_memory.md R40); with other registers they do the same. -/
theorem exec_withRegisters {i : Instr} {s t : State} (v : Reg → Word) (hi : isRegisterOp i = false)
    (h : exec i s = .next t) : exec i (s.withRegisters v) = .next (t.withRegisters v) := by
  cases i with
  | read8 a =>
    cases h
    rw [exec_read8, readByte_withRegisters]
    rfl
  | write8 a b =>
    cases h
    rw [exec_write8, writeByte_withRegisters]
    rfl
  | _ => cases hi

end Sys2Proof.Machine
end

section
/-! SUPPORT. The statements about READ8 (42_read8.md), settled. -/

namespace Sys2Proof.Machine

/-- Settles O44: the six values as one assignment to the registers. -/
theorem addressOperationsIgnoreTheRegisters : Obligations.AddressOperationsIgnoreTheRegisters := by
  unfold Obligations.AddressOperationsIgnoreTheRegisters
  intro i s t x₁ x₂ x₃ x₄ x₅ x₆ hi h
  exact exec_withRegisters
    (fun | .af => x₁ | .bc => x₂ | .de => x₃ | .hl => x₄ | .sp => x₅ | .pc => x₆) hi h

/-- Settles O52: the byte is what the read path gives, which in each region is the Cartridge's answer, one cell or the
sentinel. -/
theorem read8ReturnsTheRegionsByte : Obligations.Read8ReturnsTheRegionsByte := by
  unfold Obligations.Read8ReturnsTheRegionsByte
  intro a s
  refine ⟨by simp [encode, toNat_packCommand], s.readByte a, exec_read8 a s, fun rom => ?_, fun vram => ?_,
    fun xram => ?_, fun wram0 => ?_, fun wramx => ?_, fun echo => ?_, fun oam => ?_, fun unusable => ?_, fun high => ?_⟩
  · exact readByte_of_cartOwned (.inl rom)
  · exact readByte_of_cell (target_of_vram ((region_eq_iff a .vram).mpr vram))
  · exact readByte_of_cartOwned (.inr xram)
  · exact readByte_of_cell (target_of_wram0 ((region_eq_iff a .wram0).mpr wram0))
  · exact readByte_of_cell (target_of_wramx ((region_eq_iff a .wramx).mpr wramx))
  · exact readByte_of_noStore (target_eq_noStore (.inl echo))
  · exact readByte_of_cell (target_of_oam ((region_eq_iff a .oam).mpr oam))
  · exact readByte_of_noStore (target_eq_noStore (.inr unusable))
  · exact readByte_of_cell (target_of_high ((region_eq_iff a .high).mpr ⟨high, Nat.le_of_lt_succ a.isLt⟩))

end Sys2Proof.Machine
end

section
/-! SUPPORT. WRITE8 (43_write8.md): the address that reaches a cell, the decoder under other banks, and what one write
leaves in the Cartridge and at every address. The proofs about WRITE8 rest on this layer. -/

namespace Sys2Proof.Machine

/-! ## A cell tells its address -/

/-- The one address that can reach a cell, whatever the banks; `toNat_eq_cellAddress` ties it to the decoder. -/
def cellAddress (st : Store) (i : Nat) : Nat :=
  match st with
  | .vram => 0x8000 + i % 0x2000
  | .wram => if i < 0x1000 then 0xC000 + i else 0xD000 + i % 0x1000
  | .oam => 0xFE00 + i
  | .high => 0xFF00 + i

/-- `cellAddress` is a left inverse of the decoder (20_memory.md R47 to R51). -/
theorem toNat_eq_cellAddress {a : Word} {vb : BitVec 1} {wb : BitVec 3} {st : Store} {i : Nat}
    (h : target a vb wb = .cell st i) : a.toNat = cellAddress st i := by
  rcases target_eq_cell h with ⟨rfl, lo, hi, e⟩ | ⟨rfl, lo, hi, e⟩ | ⟨rfl, lo, hi, e⟩ | ⟨rfl, lo, hi, e⟩ | ⟨rfl, lo, e⟩ <;>
    simp only [cellAddress]
  · omega
  · rw [if_pos (by omega)]
    omega
  · rw [if_neg (by omega)]
    omega
  · omega
  · omega

/-- No cell has two addresses, not even under different banks (43_write8.md R191). -/
theorem eq_of_target_eq_cell {a a' : Word} {vb vb' : BitVec 1} {wb wb' : BitVec 3} {st : Store} {i : Nat}
    (h : target a vb wb = .cell st i) (h' : target a' vb' wb' = .cell st i) : a = a' :=
  BitVec.eq_of_toNat_eq ((toNat_eq_cellAddress h).trans (toNat_eq_cellAddress h').symm)

section
variable {a : Word} {vb vb' : BitVec 1} {wb wb' : BitVec 3}

/-! ## What an address resolves to -/

theorem target_eq_cartROM_iff : target a vb wb = .cartROM ↔ a.toNat ≤ 0x7FFF := by
  have rom_iff : target a vb wb = .cartROM ↔ region a = .rom := by
    unfold target
    cases region a <;> simp
  rw [rom_iff, region_eq_iff]
  exact and_iff_right (Nat.zero_le _)

theorem target_eq_cartRAM_iff : target a vb wb = .cartRAM ↔ 0xA000 ≤ a.toNat ∧ a.toNat ≤ 0xBFFF := by
  have xram_iff : target a vb wb = .cartRAM ↔ region a = .xram := by
    unfold target
    cases region a <;> simp
  rw [xram_iff, region_eq_iff]
  rfl

/-- Every address of a region with a store of the block reaches a cell (43_write8.md R190). -/
theorem exists_cell_of_blockOwned (h : blockOwned a) : ∃ st i, target a vb wb = .cell st i := by
  unfold blockOwned at h
  rcases target_cases a vb wb with ⟨e, b⟩ | ⟨e, b⟩ | ⟨e, b⟩ | ⟨e, b⟩ | ⟨e, b⟩ | ⟨e, b⟩ | ⟨e, b⟩ | ⟨e, b⟩ | ⟨e, b⟩
  · omega
  · exact ⟨_, _, e⟩
  · omega
  · exact ⟨_, _, e⟩
  · exact ⟨_, _, e⟩
  · omega
  · exact ⟨_, _, e⟩
  · omega
  · exact ⟨_, _, e⟩

/-- Only the switched region of a bank index depends on it (20_memory.md R41, R47 to R51). -/
theorem target_congr_banks (hv : region a = .vram → vb' = vb) (hw : region a = .wramx → wb' = wb) :
    target a vb' wb' = target a vb wb := by
  cases r : region a with
  | vram => rw [hv r, target_of_vram r, target_of_vram r]
  | wramx => rw [hw r, target_of_wramx r, target_of_wramx r]
  | rom | xram | wram0 | echo | oam | unusable | high => simp only [target, r]

end

/-! ## The selected banks as truncations of the byte (20_memory.md R57, R58) -/

theorem vramBankOfByte_eq_setWidth (v : Byte) : vramBankOfByte v = v.setWidth 1 :=
  BitVec.eq_of_toNat_eq ((toNat_vramBankOfByte v).trans (BitVec.toNat_setWidth 1 v).symm)

theorem wramBankOfByte_eq_setWidth (v : Byte) :
    wramBankOfByte v = if v.toNat % 8 = 0 then 1 else v.setWidth 3 := by
  apply BitVec.eq_of_toNat_eq
  rw [toNat_wramBankOfByte]
  split
  · rfl
  · exact (BitVec.toNat_setWidth 3 v).symm

/-! ## One WRITE8 -/

section
variable {s : State} {a : Word} {v : Byte}

/-- A write to the Cartridge's ROM region is one call (43_write8.md R181). -/
theorem exec_write8_rom (h : a.toNat ≤ 0x7FFF) :
    exec (.write8 a v) s = .next ((s.callCart (.writeROM a v)).respond 0) := by
  rw [exec_write8, State.writeByte, target_eq_cartROM_iff.mpr h]

/-- A write to the Cartridge's RAM region is one call (43_write8.md R183). -/
theorem exec_write8_xram (h : 0xA000 ≤ a.toNat ∧ a.toNat ≤ 0xBFFF) :
    exec (.write8 a v) s = .next ((s.callCart (.writeRAM a v)).respond 0) := by
  rw [exec_write8, State.writeByte, target_eq_cartRAM_iff.mpr h]

theorem exec_write8_of_cell_below_high {st : Store} {i : Nat} (h : target a s.vramBank s.wramBank = .cell st i)
    (low : a.toNat < 0xFF00) : exec (.write8 a v) s = .next ((s.writeCell st i v).respond 0) := by
  rw [exec_write8, writeByte_of_cell_below_high h low]

/-- A write to high memory stores the byte and may select a bank (20_memory.md R56). -/
theorem exec_write8_high (h : 0xFF00 ≤ a.toNat) :
    exec (.write8 a v) s = .next (((s.writeCell .high (a.toNat - 0xFF00) v).selectBanks a v).respond 0) := by
  have high : region a = .high := (region_eq_iff a .high).mpr ⟨h, Nat.le_of_lt_succ a.isLt⟩
  rw [exec_write8, writeByte_of_cell (target_of_high high), highOff]
  rfl

/-- The Cartridge after a write: as before, or with the one call of the region the address lies in. -/
theorem cart_writeByte_cases (s : State) (a : Word) (v : Byte) :
    (s.writeByte a v).cart = s.cart ∨
    (a.toNat ≤ 0x7FFF ∧ (s.writeByte a v).cart = s.cart ++ [.writeROM a v]) ∨
    (0xA000 ≤ a.toNat ∧ a.toNat ≤ 0xBFFF ∧ (s.writeByte a v).cart = s.cart ++ [.writeRAM a v]) := by
  rcases writeByte_cases s a v with ⟨t, e⟩ | ⟨t, e⟩ | ⟨st, i, _, e⟩ | ⟨_, e⟩ <;> rw [e]
  · exact .inr (.inl ⟨target_eq_cartROM_iff.mp t, rfl⟩)
  · obtain ⟨lo, hi⟩ := target_eq_cartRAM_iff.mp t
    exact .inr (.inr ⟨lo, hi, rfl⟩)
  · exact .inl (by simp)
  · exact .inl rfl

theorem cart_writeByte_of_not_cartOwned (h : ¬cartOwned a) : (s.writeByte a v).cart = s.cart := by
  rcases cart_writeByte_cases s a v with same | ⟨rom, _⟩ | ⟨lo, hi, _⟩
  · exact same
  · exact absurd (.inl rom) h
  · exact absurd (.inr ⟨lo, hi⟩) h

/-- After a write an address resolves as before, unless the write switched the bank of the address's own region. -/
theorem target_after_writeByte {a' : Word}
    (hv : a = Config.vbkAddr → a'.toNat < 0x8000 ∨ 0x9FFF < a'.toNat)
    (hw : a = Config.svbkAddr → a'.toNat < 0xD000 ∨ 0xDFFF < a'.toNat) :
    target a' (s.writeByte a v).vramBank (s.writeByte a v).wramBank = target a' s.vramBank s.wramBank := by
  apply target_congr_banks
  · intro r
    obtain ⟨lo, hi⟩ := (region_eq_iff a' .vram).mp r
    refine (vramBank_writeByte s a v).trans (if_neg fun select => ?_)
    exact (hv select).elim (Nat.not_lt.mpr lo) (Nat.not_lt.mpr hi)
  · intro r
    obtain ⟨lo, hi⟩ := (region_eq_iff a' .wramx).mp r
    refine (wramBank_writeByte s a v).trans (if_neg fun select => ?_)
    exact (hw select).elim (Nat.not_lt.mpr lo) (Nat.not_lt.mpr hi)

/-- The select registers lie outside the regions they switch, so an address reaches after its own write the cell it
wrote. -/
theorem target_self_after_writeByte :
    target a (s.writeByte a v).vramBank (s.writeByte a v).wramBank = target a s.vramBank s.wramBank :=
  target_after_writeByte (fun h => .inr (h ▸ by decide)) (fun h => .inr (h ▸ by decide))

/-- An address that reaches a cell reads as the byte just written to it (43_write8.md R190). -/
theorem readByte_writeByte_self {st : Store} {i : Nat} (hs : s.storesWf)
    (h : target a s.vramBank s.wramBank = .cell st i) : (s.writeByte a v).readByte a = v := by
  rw [readByte_of_cell (target_self_after_writeByte.trans h)]
  exact readCell_writeByte_same hs h

end

/-- Two states in which an address resolves to one target read alike there, if the cell or the Cartridge behind it is
the same. -/
theorem readByte_eq_of_same_target {s t : State} {a : Word}
    (ht : target a t.vramBank t.wramBank = target a s.vramBank s.wramBank)
    (cell : ∀ st i, target a s.vramBank s.wramBank = .cell st i → t.readCell st i = s.readCell st i)
    (cart : cartOwned a → t.cart = s.cart) : t.readByte a = s.readByte a := by
  unfold State.readByte
  rw [ht]
  split
  · rw [cart (.inl (target_eq_cartROM_iff.mp ‹_›))]
  · rw [cart (.inr (target_eq_cartRAM_iff.mp ‹_›))]
  · exact cell _ _ ‹_›
  · rfl

end Sys2Proof.Machine
end

section
/-! SUPPORT. The statements about WRITE8 (43_write8.md), settled. -/

namespace Sys2Proof.Machine

/-- Settles O49: the cell tells the address. -/
theorem differentAddressesReachDifferentCells : Obligations.DifferentAddressesReachDifferentCells := by
  unfold Obligations.DifferentAddressesReachDifferentCells
  exact fun a a' vb wb st i => eq_of_target_eq_cell

/-- Settles O30: what the write path can do, seen through one component of the state after the other. -/
theorem write8ChangesOneCell : Obligations.Write8ChangesOneCell := by
  unfold Obligations.Write8ChangesOneCell
  intro a v s t h
  rw [exec_write8] at h
  cases h
  refine ⟨fun r => ?_, inputs_writeByte s a v, fun st i other => ?_, fun hs st i reached => ?_, fun ne => ?_,
    fun ne => ?_, cart_writeByte_of_not_cartOwned⟩
  · rw [State.reg_respond, reg_writeByte]
  · exact readCell_writeByte_ne other
  · exact readCell_writeByte_same hs reached
  · exact (vramBank_writeByte s a v).trans (if_neg ne)
  · exact (wramBank_writeByte s a v).trans (if_neg ne)

/-- Settles O31: another address resolves as before, never to the cell written; and the Cartridge behind it was not
called. -/
theorem write8LeavesOtherAddressesAlone : Obligations.Write8LeavesOtherAddressesAlone := by
  unfold Obligations.Write8LeavesOtherAddressesAlone
  intro a v s t _ h a' ne hv hw hc
  rw [exec_write8] at h
  cases h
  rw [readByte_respond]
  apply readByte_eq_of_same_target (target_after_writeByte hv hw)
  · exact fun st i reached => readCell_writeByte_ne fun written => ne (eq_of_target_eq_cell reached written)
  · exact fun owned => cart_writeByte_of_not_cartOwned fun written => hc ⟨written, owned⟩

/-- Settles O42: of the four kinds of step only an operation, and of the operations only WRITE8, touches the Cartridge. -/
theorem cartridgeChangedOnlyByWriteCalls : Obligations.CartridgeChangedOnlyByWriteCalls := by
  unfold Obligations.CartridgeChangedOnlyByWriteCalls
  refine ⟨fun a v s rom => exec_write8_rom rom, fun a v s lo hi => exec_write8_xram ⟨lo, hi⟩, fun s t h changed => ?_⟩
  rcases step_cases h with ⟨_, rfl⟩ | ⟨rest, _, rfl⟩ | ⟨c, e, rest, _, _, rfl⟩ | ⟨c, i, rest, hc, hd, hx⟩
  · exact absurd rfl changed
  · exact absurd (State.cart_resetEvent _) changed
  · exact absurd (State.cart_illegalResponse _) changed
  · rcases exec_addressSpace hx with ⟨_, _, same⟩ | ⟨a, v, rfl, rfl⟩
    · exact absurd same changed
    · refine ⟨a, v, by simp [State.nextOperation, hc, hd, Except.toOption], ?_⟩
      exact (cart_writeByte_cases { s with inputs := rest } a v).resolve_left changed

/-- Settles O53: one equation of the write path per region; the select addresses lie in high memory only. -/
theorem write8ActsOnTheRegion : Obligations.Write8ActsOnTheRegion := by
  unfold Obligations.Write8ActsOnTheRegion
  intro a v s
  refine ⟨by simp [encode, toNat_packCommand], exec_write8_rom, fun vram => ?_, exec_write8_xram, fun wram0 => ?_,
    fun wramx => ?_, fun echo => ?_, fun oam => ?_, fun unusable => ?_, fun high => ?_⟩
  · exact exec_write8_of_cell_below_high (target_of_vram ((region_eq_iff a .vram).mpr vram)) (by omega)
  · exact exec_write8_of_cell_below_high (target_of_wram0 ((region_eq_iff a .wram0).mpr wram0)) (by omega)
  · exact exec_write8_of_cell_below_high (target_of_wramx ((region_eq_iff a .wramx).mpr wramx)) (by omega)
  · obtain ⟨_, dropped, _⟩ := regionsWithoutAStore a v s (.inl echo)
    exact dropped
  · exact exec_write8_of_cell_below_high (target_of_oam ((region_eq_iff a .oam).mpr oam)) (by omega)
  · obtain ⟨_, dropped, _⟩ := regionsWithoutAStore a v s (.inr unusable)
    exact dropped
  · refine ⟨_, _, exec_write8_high high, ?_, ?_⟩
    · rw [State.vramBank_writeCell, vramBankOfByte_eq_setWidth]
    · rw [State.wramBank_writeCell, wramBankOfByte_eq_setWidth]

/-- Settles O55: a block-owned address reaches the cell it wrote, whatever bank the write selected. -/
theorem readReturnsTheByteJustWritten : Obligations.ReadReturnsTheByteJustWritten := by
  unfold Obligations.ReadReturnsTheByteJustWritten
  constructor
  · intro a v s t hs owned h
    rw [exec_write8] at h
    cases h
    obtain ⟨st, i, reached⟩ := exists_cell_of_blockOwned (vb := s.vramBank) (wb := s.wramBank) owned
    rw [exec_read8, readByte_respond, readByte_writeByte_self hs.stores reached]
    rfl
  · intro a v s t ha _
    obtain ⟨sentinel, _, _⟩ := regionsWithoutAStore a v t ha
    exact sentinel

end Sys2Proof.Machine
end

section
/-! SUPPORT. The step as an equation for each kind of next input (`step_of_no_input` is the fourth): nothing stops the
block (60_exceptions.md R200, R201). -/

namespace Sys2Proof.Machine

section
variable {s : State} {rest : List Input}

theorem step_of_reset (h : s.inputs = .reset :: rest) : step s = .next ({ s with inputs := rest } : State).resetEvent := by
  simp only [step, State.takeInput, h]

theorem step_of_illegal_word {c : Command} {e : Illegal} (h : s.inputs = .command c :: rest) (hd : decode c = .error e) :
    step s = .next ({ s with inputs := rest } : State).illegalResponse := by
  simp only [step, State.takeInput, h, hd]

end

/-- The block answers whatever is presented next: nothing, the reset event, an ILLEGAL word or a legal command. -/
theorem step_total (s : State) : ∃ t, step s = .next t := by
  cases h : s.inputs with
  | nil => exact ⟨_, step_of_no_input h⟩
  | cons x rest =>
    cases x with
    | reset => exact ⟨_, step_of_reset h⟩
    | command c =>
      cases hd : decode c with
      | error e => exact ⟨_, step_of_illegal_word h hd⟩
      | ok i =>
        obtain ⟨t, ht⟩ := exec_total i { s with inputs := rest }
        exact ⟨t, (stepRunsTheDecodedOperation s c rest i h hd).trans ht⟩

end Sys2Proof.Machine
end

section
/-! SUPPORT. The statements about exceptions (60_exceptions.md), settled. -/

namespace Sys2Proof.Machine

/-- Settles O9: every arm of `exec` answers a next state, and so does the step for each kind of next input. -/
theorem noOperationAndNoStepStops : Obligations.NoOperationAndNoStepStops := by
  unfold Obligations.NoOperationAndNoStepStops
  exact ⟨exec_total, step_total⟩

/-- Settles O6: the step drops the word, and the ILLEGAL response writes `rsp` and `ill` only. -/
theorem illegalWordChangesNothing : Obligations.IllegalWordChangesNothing := by
  unfold Obligations.IllegalWordChangesNothing
  intro s c rest e h hd
  exact step_of_illegal_word h hd

end Sys2Proof.Machine
end

section
/-! SUPPORT. What a register and its two bytes hold after a SET, SETHI or SETLO of it: the layer the read-after-write
laws (40_register_pair_ops.md section 4, 70_reset_and_hazards.md R227) rest on. -/

namespace Sys2Proof.Machine

/-! ## The mask, byte by byte (10_state.md R12) -/

theorem regMask_eq_ite (r : Reg) : regMask r = if r = .af then 0xFFF0 else 0xFFFF := by cases r <;> rfl

theorem zext16_loByte_regMask (r : Reg) : zext16 (loByte (regMask r)) = if r = .af then 0x00F0 else 0x00FF := by
  cases r <;> rfl

theorem loByte_and (v m : Word) : loByte (v &&& m) = loByte v &&& loByte m := BitVec.extractLsb'_and

/-- The mask of a register has a full high byte, AF's too. -/
theorem hiByte_and_regMask (v : Word) (r : Reg) : hiByte (v &&& regMask r) = hiByte v := by
  by_cases af : r = .af
  · rw [af]
    exact hiByte_and_afMask v
  · rw [and_regMask_of_ne af]

/-- Only in an AF for which R13 does not hold does the mask find a bit to clear. -/
theorem reg_and_regMask {r : Reg} {s : State} (hs : r = .af → s.afMasked) : s.reg r &&& regMask r = s.reg r := by
  by_cases af : r = .af
  · rw [af]
    exact (hs af).af_and_afMask
  · exact and_regMask_of_ne af _

/-! ## The named register after the write -/

section
variable {r : Reg} {b : Byte} {s t : State}

theorem reg_respond_writeReg (s : State) (r : Reg) (v : Word) :
    ((s.writeReg r v).respond 0).reg r = v &&& regMask r := by
  rw [State.reg_respond, State.reg_writeReg, if_pos rfl]

theorem reg_of_set {w : Word} (h : exec (.set r w) s = .next t) : t.reg r = w &&& regMask r := by
  cases (exec_set r w s).symm.trans h
  exact reg_respond_writeReg s r w

theorem reg_of_setHi (hp : r.isPair = true) (h : exec (.setHi r b) s = .next t) :
    t.reg r = joinBytes b (loByte (s.reg r)) &&& regMask r := by
  cases (exec_setHi hp b s).symm.trans h
  exact reg_respond_writeReg s r _

theorem reg_of_setLo (hp : r.isPair = true) (h : exec (.setLo r b) s = .next t) :
    t.reg r = joinBytes (hiByte (s.reg r)) b &&& regMask r := by
  cases (exec_setLo hp b s).symm.trans h
  exact reg_respond_writeReg s r _

theorem hiByte_reg_of_setHi (hp : r.isPair = true) (h : exec (.setHi r b) s = .next t) : hiByte (t.reg r) = b := by
  rw [reg_of_setHi hp h, hiByte_and_regMask, hiByte_joinBytes]

/-- The kept byte passes through the mask again, so for AF it stays only where R13 holds. -/
theorem loByte_reg_of_setHi (hp : r.isPair = true) (hs : r = .af → s.afMasked)
    (h : exec (.setHi r b) s = .next t) : loByte (t.reg r) = loByte (s.reg r) := by
  calc loByte (t.reg r)
      = loByte (s.reg r) &&& loByte (regMask r) := by rw [reg_of_setHi hp h, loByte_and, loByte_joinBytes]
    _ = loByte (s.reg r) := by rw [← loByte_and, reg_and_regMask hs]

theorem hiByte_reg_of_setLo (hp : r.isPair = true) (h : exec (.setLo r b) s = .next t) :
    hiByte (t.reg r) = hiByte (s.reg r) := by
  rw [reg_of_setLo hp h, hiByte_and_regMask, hiByte_joinBytes]

theorem loByte_reg_of_setLo (hp : r.isPair = true) (h : exec (.setLo r b) s = .next t) :
    loByte (t.reg r) = b &&& loByte (regMask r) := by
  rw [reg_of_setLo hp h, loByte_and, loByte_joinBytes]

end

/-! ## The reset event and the block's own state -/

@[simp] theorem State.reg_resetEvent (s : State) (r : Reg) : s.resetEvent.reg r = State.reset.reg r := by
  cases r <;> rfl

@[simp] theorem State.store_resetEvent (s : State) (st : Store) : s.resetEvent.store st = State.reset.store st := by
  cases st <;> rfl

end Sys2Proof.Machine
end

section
/-! SUPPORT. The statements about reset and reads after writes (70_reset_and_hazards.md), settled. -/

namespace Sys2Proof.Machine

/-- Settles O26: a read after the write sees the joined bytes under the mask, which is full in a high byte and clears
bits of AF's low byte only. -/
theorem readsAfterRegisterWrites : Obligations.ReadsAfterRegisterWrites := by
  unfold Obligations.ReadsAfterRegisterWrites
  refine ⟨fun r w s t h => ?_, fun r b s t hp h => ⟨?_, fun hs => ?_⟩, fun r b s t hp h => ⟨?_, ?_⟩⟩
  · rw [exec_value, reg_of_set h, regMask_eq_ite]
    rfl
  · rw [exec_hi hp, ← zext16_hiByte, hiByte_reg_of_setHi hp h]
    rfl
  · rw [exec_lo hp, ← zext16_loByte, loByte_reg_of_setHi hp hs h, zext16_loByte]
    rfl
  · rw [exec_hi hp, ← zext16_hiByte, hiByte_reg_of_setLo hp h, zext16_hiByte]
    rfl
  · have low : zext16 (b &&& loByte (regMask r)) = b.setWidth 16 &&& (if r = .af then 0x00F0 else 0x00FF) := by
      rw [← zext16_loByte_regMask]
      exact BitVec.setWidth_and
    rw [exec_lo hp, ← zext16_loByte, loByte_reg_of_setLo hp h, low]
    rfl

/-- Settles O7: the step drops the event, and the event takes over nothing but the Cartridge and the inputs. -/
theorem resetEventGivesPowerUpState : Obligations.ResetEventGivesPowerUpState := by
  unfold Obligations.ResetEventGivesPowerUpState
  intro s rest h
  exact ⟨_, step_of_reset h, State.reg_resetEvent _, ⟨rfl, rfl⟩, State.store_resetEvent _, rfl, rfl⟩

end Sys2Proof.Machine
end

section
/-! SUPPORT. Two writes one after the other: byte writes of one register (40_register_pair_ops.md section 4) and flag
setters (41_flag_ops.md section 4). -/

namespace Sys2Proof.Machine

/-! ## Byte writes that complete a SET -/

section
variable {r : Reg} {w : Word} {s t : State}

/-- The mask a write applies takes nothing more from a value that was masked before (R127). -/
theorem writeReg_and_regMask (s : State) (r : Reg) (v : Word) : s.writeReg r (v &&& regMask r) = s.writeReg r v := by
  rw [State.writeReg, State.writeReg, BitVec.and_assoc, BitVec.and_self]

/-- Where the high byte is that of `w` already, the low byte is all that is missing. -/
theorem exec_setLo_loByte_eq_set (hp : r.isPair = true) (h : hiByte (s.reg r) = hiByte w) :
    exec (.setLo r (loByte w)) s = exec (.set r w) s := by
  rw [exec_setLo hp, h, joinBytes_hiByte_loByte, exec_set]

/-- Where the low byte is that of `w` already, as far as the mask lets it, the high byte is all that is missing. -/
theorem exec_setHi_hiByte_eq_set (hp : r.isPair = true) (h : loByte (s.reg r) = loByte w &&& loByte (regMask r)) :
    exec (.setHi r (hiByte w)) s = exec (.set r w) s := by
  have join : joinBytes (hiByte w) (loByte (s.reg r)) = w &&& regMask r := by
    rw [h, ← loByte_and, ← hiByte_and_regMask w r, joinBytes_hiByte_loByte]
  rw [exec_setHi hp, join, writeReg_and_regMask, exec_set]

/-- SET overwrites whatever an earlier write of the same register left, the response included. -/
theorem exec_set_of_registerWrite {b : Byte} {v : Word}
    (h : exec (.setHi r b) s = .next t ∨ exec (.setLo r b) s = .next t ∨ exec (.set r v) s = .next t) :
    exec (.set r w) t = exec (.set r w) s := by
  rcases exec_registerWrite h with ⟨u, rfl⟩ | rfl
  · cases r <;> rfl
  · cases r <;> rfl

end

/-! ## Two flag setters -/

/-- Different flags are different bits of AF, and a setter changes nothing else. -/
theorem writeFlag_comm {x y : Flag} (ne : x ≠ y) (f g : Bool) (s : State) :
    (s.writeFlag x f).writeFlag y g = (s.writeFlag y g).writeFlag x f := by
  have bits_ne : flagBit x ≠ flagBit y := fun e => ne (flagBit_injective e)
  have same_af : ((s.writeFlag x f).writeFlag y g).af = ((s.writeFlag y g).writeFlag x f).af := by
    apply BitVec.eq_of_getLsbD_eq
    intro k _
    simp only [getLsbD_af_writeFlag]
    by_cases hx : k = flagBit x
    · simp [hx, bits_ne, (flagBit_bounds x).1]
    · by_cases hy : k = flagBit y
      · simp [hy, bits_ne.symm, (flagBit_bounds y).1]
      · simp [hx, hy]
  exact congrArg (s.setReg .af) same_af

/-- Of two writes of one flag only the later one is left. -/
theorem writeFlag_writeFlag_same (s : State) (x : Flag) (f g : Bool) :
    (s.writeFlag x f).writeFlag x g = s.writeFlag x g := by
  have same_af : ((s.writeFlag x f).writeFlag x g).af = (s.writeFlag x g).af := by
    apply BitVec.eq_of_getLsbD_eq
    intro k _
    simp only [getLsbD_af_writeFlag]
    by_cases hx : k = flagBit x
    · simp [hx]
    · simp [hx]
  exact congrArg (s.setReg .af) same_af

section
variable {s t : State} {x : Flag} {f : Bool} (h : exec (flagSetter x f) s = .next t)
include h

/-- A setter does not see the response the one before it left. -/
theorem exec_flagSetter_of_flagSetter (y : Flag) (g : Bool) :
    exec (flagSetter y g) t = .next (((s.writeFlag x f).writeFlag y g).respond 0) := by
  cases (exec_flagSetter x f s).symm.trans h
  exact exec_flagSetter y g _

/-- In every state the getter of the flag that was set answers the operand. -/
theorem exec_flagGetter_of_flagSetter_same :
    exec (flagGetter x) t = .next (t.respond (boolResponse f)) := by
  cases (exec_flagSetter x f s).symm.trans h
  have set : ((s.writeFlag x f).respond 0).flag x = f := (flag_writeFlag s x x f).trans (if_pos rfl)
  rw [exec_flagGetter, set]

end

end Sys2Proof.Machine
end

section
/-! SUPPORT. The laws of two operations one after the other (40_register_pair_ops.md section 4, 41_flag_ops.md
section 4), settled. -/

namespace Sys2Proof.Machine

/-- Settles O25: the second byte write finds the first byte of `w` in place, so it is a SET, and a SET forgets the first
byte write. -/
theorem twoByteWritesMakeASet : Obligations.TwoByteWritesMakeASet := by
  unfold Obligations.TwoByteWritesMakeASet
  intro r w s t₁ t₂ u₁ u₂ hp setHi thenLo setLo thenHi
  have set_t : exec (.set r w) s = .next t₂ := by
    rw [← exec_set_of_registerWrite (v := w) (.inl setHi), ← thenLo]
    exact (exec_setLo_loByte_eq_set hp (hiByte_reg_of_setHi hp setHi)).symm
  have set_u : exec (.set r w) s = .next u₂ := by
    rw [← exec_set_of_registerWrite (v := w) (.inr (.inl setLo)), ← thenHi]
    exact (exec_setHi_hiByte_eq_set hp (loByte_reg_of_setLo hp setLo)).symm
  exact ⟨set_t, Host.Outcome.next.inj (set_u.symm.trans set_t)⟩

/-- Settles O35: a setter writes one flag and keeps the other flags and the accumulator, R13 or not. -/
theorem flagReadsBackAndOthersSurvive : Obligations.FlagReadsBackAndOthersSurvive := by
  unfold Obligations.FlagReadsBackAndOthersSurvive
  intro x y f s t g h hg
  refine ⟨fun same => ?_, fun ne => exec_flagGetter_of_flagSetter_ne h ne hg, exec_hi_af_of_flagSetter h⟩
  rw [same]
  exact exec_flagGetter_of_flagSetter_same h

/-- Settles O36: two setters write two bits of AF, or one bit twice, and the later one's response is the same. -/
theorem flagSettersCommute : Obligations.FlagSettersCommute := by
  unfold Obligations.FlagSettersCommute
  constructor
  · intro x y f g s t₁ t₂ u₁ u₂ ne hx thenY hy thenX
    rw [exec_flagSetter_of_flagSetter hx] at thenY
    rw [exec_flagSetter_of_flagSetter hy, ← writeFlag_comm ne] at thenX
    exact Host.Outcome.next.inj (thenY.symm.trans thenX)
  · intro x f g s t h
    rw [exec_flagSetter_of_flagSetter h, writeFlag_writeFlag_same, exec_flagSetter]

end Sys2Proof.Machine
end
